-- ==== Sys2Proof/Word.lean ====
section
/-! DEFINITION. The word types of the block: bytes (R9), scalar values (R34 (a)) and lists of zero bytes (R10). -/

namespace Sys2Proof

/-- A byte: 8 bits, unsigned, bit 0 least significant (R9). -/
abbrev Byte := BitVec 8

/-- `n` is a Unicode scalar value: 0x0000 to 0x10FFFF without 0xD800 to 0xDFFF (R34 (a)). -/
abbrev isScalar (n : Nat) : Prop := n < 0xD800 ∨ 0xDFFF < n ∧ n ≤ 0x10FFFF

/-- `zeros n`: a list of `n` zero bytes (R10). -/
abbrev zeros (n : Nat) : List Byte := List.replicate n 0

end Sys2Proof
end

