-- ==== Sys2Proof/Config.lean ====
section
/-! DEFINITION. The parameters of the block: the constants the source settles (R7), the configuration of one
model instance (R8, R31, R32), and the free values: the instance's configuration and the line driver's answers. -/

namespace Sys2Proof

/-! ## The settled parameters (R7). Each is one named constant, so that a wrong literal is mended in one place. -/

/-- `COLS`: the logical panel width in byte columns. -/
abbrev cols : Nat := 27
/-- `LEFT_COLS`: the columns sent to the left unit. -/
abbrev leftCols : Nat := 14
/-- `RIGHT_COLS`: the columns sent to the right unit before the status byte. -/
abbrev rightCols : Nat := 13
/-- `MAX_DATA`: the most data bytes one wire frame carries. -/
abbrev maxData : Nat := 14
/-- `CMD_BITS`: the bits of a command byte sent. -/
abbrev cmdBits : Nat := 8
/-- `SLOT_BITS`: the low bits of a data byte sent. -/
abbrev slotBits : Nat := 5
/-- `ODD_PAD`: the zero bits sent after each odd-indexed data byte. -/
abbrev oddPad : Nat := 6
/-- `STEP_MS`: the scroll delay after each frame, in milliseconds. -/
abbrev stepMs : Nat := 128
/-- `CMD_ADDR_WRITE` (R64). -/
abbrev cmdAddrWriteByte : Byte := 0xC0
/-- `CMD_POWER_OFF` (R66). -/
abbrev cmdPowerOffByte : Byte := 0x80
/-- `POWER_ON_BASE` (R65). -/
abbrev powerOnBase : Byte := 0x88

/-! ## Pins and answers -/

/-- The four pins of the block, each by its role (R25, R31). Their numbers are the configuration's (log 9). -/
inductive Pin where
  | clk
  | dio
  | stbL
  | stbR
deriving DecidableEq, Repr

/-- What the line driver answers to a call (R11). -/
inductive Answer where
  | ok
  | err
deriving DecidableEq, Repr, Inhabited

/-- The indicators of the panel that a status bit may light (91_not_in_source.md N8). -/
inductive Indicator where
  | time
  | medal
  | upload
  | download
deriving DecidableEq, Repr

/-! ## The configuration of one model instance -/

/-- The parameters the source leaves open (R8, R32). Plain data: the character table and the case map are lists
with strictly rising keys, which hold every map on the scalar values (log 11). -/
structure Config where
  /-- `PIN_CLK` -/
  pinClk : Nat
  /-- `PIN_DIO` -/
  pinDio : Nat
  /-- `PIN_STB_L` -/
  pinStbL : Nat
  /-- `PIN_STB_R` -/
  pinStbR : Nat
  /-- `DISPLAY_MODE_CMD` (R62) -/
  displayModeCmd : Byte
  /-- `DATA_MODE_CMD` (R63) -/
  dataModeCmd : Byte
  /-- `CHAR_LUT` (R170): the keys with their byte lists. -/
  charLut : List (Nat × List Byte)
  /-- `UPPER` (R172): the scalar values it moves, with what it moves them to. -/
  upper : List (Nat × Nat)
  /-- `MAX_TEXT` (R8) -/
  maxText : Nat
  /-- `MAX_GLYPH` (R8, R170) -/
  maxGlyph : Nat
  /-- `SHUTDOWN_BLANK_AFTER_POWER_ERR` (R147) -/
  shutdownBlankAfterPowerErr : Bool
  /-- `STATUS_BIT_MAP` (R8): no rule reads it (log 24). -/
  statusBitMap : List (Nat × Indicator)
deriving DecidableEq, Repr

/-- The number of a pin in this configuration (R31, R32). -/
def Config.pinNumber (c : Config) : Pin → Nat
  | .clk => c.pinClk
  | .dio => c.pinDio
  | .stbL => c.pinStbL
  | .stbR => c.pinStbR

/-- The keys at which every character table holds an entry (R171). -/
def requiredKeys : List Nat :=
  (List.range 26).map (0x41 + ·) ++ (List.range 10).map (0x30 + ·) ++
    [0x2B, 0x2D, 0x2A, 0x2F, 0x3D, 0x2E, 0x3A, 0xFF1A, 0x2103]

/-- The pins are pairwise distinct (R8, R32). -/
abbrev Config.pinsDistinct (c : Config) : Prop :=
  [c.pinClk, c.pinDio, c.pinStbL, c.pinStbR].Pairwise (· ≠ ·)

/-- The table's form: keys rising scalar values, entries of 1 to `MAX_GLYPH` bytes (R170), and an entry at every
required key (R171). -/
abbrev Config.lutLegal (c : Config) : Prop :=
  (c.charLut.map Prod.fst).Pairwise (· < ·) ∧
  (∀ e ∈ c.charLut, isScalar e.1 ∧ 1 ≤ e.2.length ∧ e.2.length ≤ c.maxGlyph) ∧
  (∀ k ∈ requiredKeys, k ∈ c.charLut.map Prod.fst)

/-- The case map's form: keys rising scalar values moved to other scalar values; 'a' to 'z' move down by 0x20
(R172 (a)); no required key moves (R172 (b)). -/
abbrev Config.upperLegal (c : Config) : Prop :=
  (c.upper.map Prod.fst).Pairwise (· < ·) ∧
  (∀ e ∈ c.upper, isScalar e.1 ∧ isScalar e.2 ∧ e.1 ≠ e.2) ∧
  (∀ k ∈ List.range 26, (0x61 + k, 0x41 + k) ∈ c.upper) ∧
  (∀ k ∈ requiredKeys, k ∉ c.upper.map Prod.fst)

/-- `c` is the configuration of a model instance: it meets the constraints of R8, R170, R171 and R172. -/
abbrev Config.wf (c : Config) : Prop :=
  c.pinsDistinct ∧ c.lutLegal ∧ c.upperLegal ∧ 1 ≤ c.maxText ∧ 1 ≤ c.maxGlyph

/-- The configurations that are instances of this hardware (R171). -/
abbrev Config.Legal := { c : Config // c.wf }

/-- A configuration that meets every constraint. It only shows that there is one; nothing of the model reads its
values (log 2). -/
def Config.someLegal : Config where
  pinClk := 0
  pinDio := 1
  pinStbL := 2
  pinStbR := 3
  displayModeCmd := 0
  dataModeCmd := 0
  charLut :=
    (([0x2A, 0x2B, 0x2D, 0x2E, 0x2F] ++ (List.range 10).map (0x30 + ·) ++ [0x3A, 0x3D] ++
      (List.range 26).map (0x41 + ·) ++ [0x2103, 0xFF1A]).map fun k => (k, [0]))
  upper := (List.range 26).map fun k => (0x61 + k, 0x41 + k)
  maxText := 1
  maxGlyph := 1
  shutdownBlankAfterPowerErr := false
  statusBitMap := []

theorem Config.someLegal_wf : Config.someLegal.wf := by decide

/-- FREE VALUE: some legal configuration, which one is unknown. It has no body, so that of the configuration it
gives only its legality can be proved (log 2). -/
opaque Config.anyLegal : [Inhabited Config.Legal] → Config.Legal

/-- The configuration of the block at reset: "fixed at instantiation" (R32), a free value among the legal ones
(log 2). -/
def Config.reference : Config := (@Config.anyLegal ⟨⟨Config.someLegal, Config.someLegal_wf⟩⟩).val

/-- All that is known of the configuration at reset: it is legal. -/
theorem Config.reference_wf : Config.reference.wf := (@Config.anyLegal ⟨⟨Config.someLegal, Config.someLegal_wf⟩⟩).property

/-- FREE VALUE: the line driver's answer to its `n`-th call, where no answer is listed in the state (R11, D1,
log 3). -/
opaque Config.freeAnswer : Nat → Answer

end Sys2Proof
end

