-- ==== Sys2Proof/Syntax.lean ====
section
/-! DEFINITION. The instructions: one constructor for each row of spec/opcode_table.json, the five wire command
bytes (R61) and the eight host request forms (R72). -/

namespace Sys2Proof

/-- The two Display Units (R15, R31, R140). The strobe line, not the command byte, says which one is meant. -/
inductive UnitId where
  | left
  | right
deriving DecidableEq, Repr

/-- The instructions of the block. -/
inductive Instr where
  /-- CMD_DISPLAY_MODE on a unit (R62, R121). -/
  | cmdDisplayMode (u : UnitId)
  /-- CMD_DATA_MODE on a unit (R63, R122). -/
  | cmdDataMode (u : UnitId)
  /-- CMD_ADDR_WRITE on a unit, with its data bytes (R64, R125). -/
  | cmdAddrWrite (u : UnitId) (d : List Byte)
  /-- CMD_POWER_ON on a unit, with its brightness field (R65, R124). -/
  | cmdPowerOn (u : UnitId) (b : BitVec 3)
  /-- CMD_POWER_OFF on a unit (R66, R124). -/
  | cmdPowerOff (u : UnitId)
  /-- INIT (R141). -/
  | init
  /-- SET_DISPLAY_MODE (R142). -/
  | setDisplayMode
  /-- SET_DATA_MODE (R143). -/
  | setDataMode
  /-- SET_POWER with ON = 0; `b` is the `ARG` byte, carried and ignored (R144). -/
  | setPowerOff (b : Byte)
  /-- SET_POWER with ON = 1; `b` is the `ARG` byte (R144). -/
  | setPowerOn (b : Byte)
  /-- WRITE_FRAME: the status byte and the columns (R146). -/
  | writeFrame (st : Byte) (bytes : List Byte)
  /-- RENDER: the status byte and the text's scalar values (R190). -/
  | render (st : Byte) (text : List Nat)
  /-- SHUTDOWN (R147). -/
  | shutdown
deriving DecidableEq, Repr

/-- `i` is a host request; otherwise it is a wire command of one unit (R2). -/
def Instr.isHostRequest : Instr → Bool
  | .cmdDisplayMode _ => false
  | .cmdDataMode _ => false
  | .cmdAddrWrite _ _ => false
  | .cmdPowerOn _ _ => false
  | .cmdPowerOff _ => false
  | .init => true
  | .setDisplayMode => true
  | .setDataMode => true
  | .setPowerOff _ => true
  | .setPowerOn _ => true
  | .writeFrame _ _ => true
  | .render _ _ => true
  | .shutdown => true

end Sys2Proof
end

