-- ==== Sys2Proof/Machine/State.lean ====
section
/-! DEFINITION. The state of the block (R20 to R35), the reasons a step can stop, and the state after reset (R35,
R250). The block has no memory, no general registers and no flags (R12, R21, R23). -/

namespace Sys2Proof.Machine

/-- The lifecycle register's values (R24). -/
inductive Life where
  | unconfigured
  | ready
  | initFailed
  | released
deriving DecidableEq, Repr

/-- What is known of a line: 0, 1, or X for unknown (R25). -/
inductive Level where
  | low
  | high
  | unknown
deriving DecidableEq, Repr

/-- The line-level shadow `lvl`, one level for each pin (R25). -/
structure Levels where
  clk : Level
  dio : Level
  stbL : Level
  stbR : Level
deriving DecidableEq, Repr

/-- The status codes (R221). Codes 7 to 255 are never produced, so they have no constructor. -/
inductive Status where
  | ok
  | errPinConfig
  | errLineWrite
  | errRelease
  | errState
  | errIllegal
  | errContract
deriving DecidableEq, Repr

/-- The events of the trace (R27). -/
inductive Event where
  /-- `SetLevel(p, b)` was called and answered `r`. -/
  | lvl (p : Pin) (b : Bool) (r : Answer)
  /-- `Export(p)` was called. -/
  | exp (p : Pin) (r : Answer)
  /-- `SetDirOut(p)` was called. -/
  | dir (p : Pin) (r : Answer)
  /-- `Release(p)` was called. -/
  | rel (p : Pin) (r : Answer)
  /-- `ReleaseHandles()` was called. -/
  | relH
  /-- `Delay(ms)` was called. -/
  | wait (ms : Nat)
  /-- A request finished with status `s`. -/
  | resp (s : Status)
deriving DecidableEq, Repr

/-- The state of the machine. The fields down to `pos` are the spec's; the last four are the model's own. -/
structure State where
  /-- The configuration of this instance, read-only (R32, log 1). -/
  cfg : Config
  /-- The lifecycle register (R24). -/
  life : Life
  /-- The line-level shadow (R25). -/
  lvl : Levels
  /-- 1 from a request's acceptance to its response (R26). -/
  busy : Bool
  /-- The event trace, held newest event first; `State.trace` is the spec's list (R27, log 28). -/
  events : List Event
  /-- The status of the most recent request, none before the first (R28). -/
  resp : Option Status
  /-- The frame register: 27 columns while a screen frame is sent, else no value (R29, log 10). -/
  fb : Option (List Byte)
  /-- The status byte register, with a value while a screen frame is sent (R29). -/
  st : Option Byte
  /-- The encoded byte buffer, with a value during a RENDER (R30). -/
  buf : Option (List Byte)
  /-- The length of `buf`, with a value during a RENDER (R30). -/
  L : Option Nat
  /-- The scroll's step index, with a value during a RENDER (R30). -/
  i : Option Nat
  /-- The scroll's window cursor, with a value during a RENDER (R30). -/
  start : Option Nat
  /-- The host requests of the program, in order (R22, log 6). -/
  program : List (List Byte)
  /-- The index of the request being performed, or to be accepted next (R22). -/
  pos : Nat
  /-- MODEL: a Display Unit operation called for, its unit and its bytes (R120, log 7). -/
  unitCall : Option (UnitId × List Byte)
  /-- MODEL: the result the last Display Unit operation returned (R106, R120, log 7). -/
  unitResult : Option Answer
  /-- MODEL: the line driver's coming answers; past their end an answer is a free value (R11, log 3). -/
  answers : List Answer
  /-- MODEL: how many answers have been drawn (log 3). -/
  draws : Nat
deriving DecidableEq, Repr

/-- The event trace of R27: the events in the order the block performed them. -/
def State.trace (s : State) : List Event := s.events.reverse

/-- Why the machine stops with a fault. -/
inductive Fault where
  /-- Raised by `step` in a state with `busy` = 1 and no request at `pos`. No run reaches such a state, and the spec
  gives it no behaviour (R22, R26). Safe: the machine stops (log 21). -/
  | busyWithoutRequest
deriving DecidableEq, Repr

/-- Why the machine gives an instruction no meaning. -/
inductive Refusal where
  /-- Raised by `exec` for an instruction that has no meaning yet. Safe: the machine stops. -/
  | notModelled (mnemonic : String)
  /-- Raised by `step` where the bytes at `unitCall` are no wire command of R61: the block never sends any other
  (R69). Safe: the machine stops (log 8). -/
  | notAWireCommand
deriving DecidableEq, Repr

/-- The state after reset (R35, R250 to R252). The configuration is a free value among the legal ones (log 2). -/
def State.reset : State where
  cfg := Config.reference
  life := .unconfigured
  lvl := ⟨.unknown, .unknown, .unknown, .unknown⟩
  busy := false
  events := []
  resp := none
  fb := none
  st := none
  buf := none
  L := none
  i := none
  start := none
  program := []
  pos := 0
  unitCall := none
  unitResult := none
  answers := []
  draws := 0

end Sys2Proof.Machine
end

