-- ==== Sys2Proof/Machine/Glyphs.lean ====
section
/-! DEFINITION. The character table's lookups (R170 to R177). No lookup appends an event, fails or changes the state
(R47, R173). -/

namespace Sys2Proof.Machine

/-- The value a list of key and value pairs holds at a key. -/
def valueAt {α : Type} (key : Nat) : List (Nat × α) → Option α
  | [] => none
  | (k, v) :: rest => if k = key then some v else valueAt key rest

/-- `CHAR_LUT(c)`: the list held at `c`, or none (R170). -/
def charLut (cfg : Config) (c : Nat) : Option (List Byte) := valueAt c cfg.charLut

/-- `UPPER(c)`: where the case map moves `c`, else `c` (R172). -/
def upper (cfg : Config) (c : Nat) : Nat := (valueAt c cfg.upper).getD c

/-- Glyph(c): the table's list at the uppercase of `c`; a miss gives no bytes (R173, R175). -/
def glyph (cfg : Config) (c : Nat) : List Byte :=
  match charLut cfg (upper cfg c) with
  | none => []
  | some g => g

/-- Expand(text): the glyphs in text order (R174). -/
def expand (cfg : Config) : List Nat → List Byte
  | [] => []
  | c :: text => glyph cfg c ++ expand cfg text

end Sys2Proof.Machine
end

