-- ==== Sys2Proof/Machine/Ops.lean ====
section
/-! DEFINITION. The shared operations of the block: line-driver calls and the trace (R11, R25, R27), performing a list
of calls, the lifecycle check (R224), and ending a request (R28, R226). -/

namespace Sys2Proof.Machine

/-! ## Codes -/

/-- The lifecycle register's 2-bit encoding (R24). -/
def Life.code : Life → BitVec 2
  | .unconfigured => 0
  | .ready => 1
  | .initFailed => 2
  | .released => 3

/-- The response byte of a status (R74, R221). -/
def Status.code : Status → Byte
  | .ok => 0
  | .errPinConfig => 1
  | .errLineWrite => 2
  | .errRelease => 3
  | .errState => 4
  | .errIllegal => 5
  | .errContract => 6

/-! ## Line levels (R25) -/

/-- The level a pin was driven to. -/
def Level.ofBit : Bool → Level
  | false => .low
  | true => .high

/-- `lvl[p]` -/
def Levels.get (l : Levels) : Pin → Level
  | .clk => l.clk
  | .dio => l.dio
  | .stbL => l.stbL
  | .stbR => l.stbR

/-- `lvl[p] <- v` -/
def Levels.set (l : Levels) (p : Pin) (v : Level) : Levels :=
  match p with
  | .clk => { l with clk := v }
  | .dio => { l with dio := v }
  | .stbL => { l with stbL := v }
  | .stbR => { l with stbR := v }

/-- Every pin unknown: the reset value of `lvl`. -/
def Levels.unknown : Levels := ⟨.unknown, .unknown, .unknown, .unknown⟩

/-- What an event does to the level shadow (R25): a write answered `ok` is known, a write answered `err` and every
configuration or release call makes the pin unknown, nothing else touches it. -/
def Levels.after (l : Levels) : Event → Levels
  | .lvl p b .ok => l.set p (Level.ofBit b)
  | .lvl p _ .err => l.set p .unknown
  | .exp p _ => l.set p .unknown
  | .dir p _ => l.set p .unknown
  | .rel p _ => l.set p .unknown
  | .relH => l
  | .wait _ => l
  | .resp _ => l

/-- An event is appended to the trace, and the level shadow follows it (R25, R27). -/
def State.record (e : Event) (s : State) : State :=
  { s with events := e :: s.events, lvl := s.lvl.after e }

/-! ## Line-driver calls (R11) -/

/-- The calls that the line driver answers. -/
inductive Call where
  /-- `SetLevel(p, b)` -/
  | setLevel (p : Pin) (b : Bool)
  /-- `Export(p)` -/
  | exportPin (p : Pin)
  /-- `SetDirOut(p)` -/
  | setDirOut (p : Pin)
  /-- `Release(p)` -/
  | release (p : Pin)
deriving DecidableEq, Repr

/-- The event a call and its answer append (R27). -/
def Call.event (c : Call) (r : Answer) : Event :=
  match c with
  | .setLevel p b => .lvl p b r
  | .exportPin p => .exp p r
  | .setDirOut p => .dir p r
  | .release p => .rel p r

/-- The answer to the `k`-th call from here (0 is the next one): the listed one, or past the list's end the free
value (R11, D1, log 3). -/
def State.answerAt (s : State) (k : Nat) : Answer :=
  (s.answers[k]?).getD (Config.freeAnswer (s.draws + k))

/-- One answer is used up. -/
def State.drawn (s : State) : State := { s with answers := s.answers.drop 1, draws := s.draws + 1 }

/-- One line-driver call: it draws its answer and appends its event, as one atomic event (R11, R27, R46). -/
def State.perform (c : Call) (s : State) : State × Answer :=
  (s.drawn.record (c.event (s.answerAt 0)), s.answerAt 0)

/-- `Delay(ms)`: it always succeeds (R11, R230). -/
def State.delay (ms : Nat) (s : State) : State := s.record (.wait ms)

/-- `ReleaseHandles()`: it always succeeds (R11, D20, log 16). -/
def State.releaseHandles (s : State) : State := s.record .relH

/-- `try` each call in order, stopping at the first one answered `err` (R11, R104): the failed call's event is in the
trace, no later call is made. -/
def State.performAll : List Call → State → State × Answer
  | [], s => (s, .ok)
  | c :: cs, s =>
    match s.perform c with
    | (t, .ok) => State.performAll cs t
    | (t, .err) => (t, .err)

/-- Every call in order, whatever the answers; `err` if one of them was (R147: SHUTDOWN's release phase). -/
def State.performEvery : List Call → State → State × Answer
  | [], s => (s, .ok)
  | c :: cs, s =>
    let r := s.perform c
    let q := State.performEvery cs r.1
    (q.1, if r.2 = .ok then q.2 else .err)

/-- `x` and then, only if it answered `ok`, `k`: the fail-fast order of two operations (R149). -/
def andThen (x : State × Answer) (k : State → State × Answer) : State × Answer :=
  match x with
  | (t, .ok) => k t
  | (t, .err) => (t, .err)

/-! ## Ending a request -/

/-- The registers that hold a value only while an operation runs hold none (R29, R30, R226 (d)). -/
def State.dropWork (s : State) : State :=
  { s with fb := none, st := none, buf := none, L := none, i := none, start := none }

/-- THE END OF A REQUEST, with an error status or `OK`: the block's one exceptional exit and its normal one (R28,
R226). It writes `resp`, appends `Resp`, clears `busy`, abandons the working registers and moves the position on
(R22), as one step. Returning from an error is just the next request (R227). -/
def State.finish (st : Status) (s : State) : State :=
  { s.dropWork.record (.resp st) with resp := some st, busy := false, pos := s.pos + 1 }

/-- The lifecycle check, then the operation, then the response (R73 check 10, R224): in another life value the request
ends with `ERR_STATE` and no event before its response. -/
def State.runIn (need : Life) (op : State → State × Status) (s : State) : State :=
  if s.life = need then
    let r := op s
    r.1.finish r.2
  else s.finish .errState

/-- The block accepts the next request: `busy` becomes 1 (R26). -/
def State.accept (s : State) : State := { s with busy := true }

/-- The end of a Display Unit operation called for at `unitCall`: its result goes back to its caller (R106, R120,
log 7). -/
def State.unitReturn (x : State × Answer) : State := { x.1 with unitResult := some x.2 }

end Sys2Proof.Machine
end

