-- ==== Sys2Proof/Machine/Flags.lean ====
section
/-! DEFINITION. The block has no flags (R23). What decides an operation's outcome is its status: which error an answer
stands for, and that the first error met is the one reported (R225). -/

namespace Sys2Proof.Machine

/-- The status of an operation whose line writes answered `r` (R221). -/
def lineStatus : Answer → Status
  | .ok => .ok
  | .err => .errLineWrite

/-- The error recorded so far, after a phase that answered `r` and whose error is `code`: a later error never replaces
the first one (R147, R225). -/
def noteError (e : Option Status) (r : Answer) (code : Status) : Option Status :=
  match e, r with
  | some first, _ => some first
  | none, .ok => none
  | none, .err => some code

/-- `finish with status (e if e ≠ none else OK)` (R147). -/
def reported (e : Option Status) : Status := e.getD .ok

end Sys2Proof.Machine
end

