-- ==== Sys2Proof/Machine/Operands.lean ====
section
/-! DEFINITION. What the block computes on its operands (R17): bit order, the power byte, the padded frame, the
centred frame and the scroll window; and the pins of a unit (R31). -/

namespace Sys2Proof.Machine

/-! ## Units (R31) -/

/-- A Display Unit's record of three pins. -/
structure UnitPins where
  stb : Pin
  clk : Pin
  dio : Pin
deriving DecidableEq, Repr

/-- The two unit records: the clock and data pins are shared, the strobes differ (R31). -/
def unitPins : UnitId → UnitPins
  | .left => ⟨.stbL, .clk, .dio⟩
  | .right => ⟨.stbR, .clk, .dio⟩

/-- A unit's pins in the order clk, dio, stb (R141, R148). -/
def pinOrder (u : UnitId) : List Pin := [(unitPins u).clk, (unitPins u).dio, (unitPins u).stb]

/-! ## Bits and bytes -/

/-- The low `k` bits of `v`, least significant first (R40, R101). -/
def lowBits (v : Byte) (k : Nat) : List Bool := (List.range k).map fun j => v.getLsbD j

/-- `PowerByte(on, b)`: 0x88 OR (b AND 7), or 0x80 (R123). -/
def powerByte (on : Bool) (b : Byte) : Byte :=
  if on then powerOnBase ||| (b &&& 0x07) else cmdPowerOffByte

/-! ## Frames of columns -/

/-- `xs ++ zeros(27 - len(xs))` (R10, R145). -/
def pad27 (xs : List Byte) : List Byte := xs ++ zeros (cols - xs.length)

/-- `xs[a:b]` (R10). -/
def slice (xs : List Byte) (a b : Nat) : List Byte := (xs.take b).drop a

/-- The left unit's data bytes: `fb[0:14]` (R42, R145). -/
def leftData (fb : List Byte) : List Byte := slice fb 0 leftCols

/-- The right unit's data bytes: `fb[14:27] ++ [st]` (R42, R145). -/
def rightData (fb : List Byte) (st : Byte) : List Byte := slice fb leftCols cols ++ [st]

/-- The centred frame: `off = floor((27 - L) / 2)` zeros, the buffer, and `27 - L - off` zeros (R192). -/
def centred (buf : List Byte) : List Byte :=
  let off := (cols - buf.length) / 2
  zeros off ++ buf ++ zeros (cols - buf.length - off)

/-- The scroll cursor at step `i`: `max(0, i - 27)` (R194). -/
def cursor (i : Nat) : Nat := i - cols

end Sys2Proof.Machine
end

