-- ==== Sys2Proof/Machine/Encoder.lean ====
section
/-! DEFINITION. The Protocol Encoder (R100 to R110): EmitBit, EmitBits and Frame, each as the calls it tries in order.
Performing them with `State.performAll` makes every listed call, suppresses none (R109), stops at the first one answered
`err` (R104), and puts no delay between them (R110). -/

namespace Sys2Proof.Machine

/-- EmitBit(b): clock low, data, clock high (R100). -/
def emitBit (b : Bool) : List Call := [.setLevel .clk false, .setLevel .dio b, .setLevel .clk true]

/-- EmitBits(v, k): the low `k` bits of `v`, least significant first (R101). -/
def emitBits (v : Byte) (k : Nat) : List Call := (lowBits v k).flatMap emitBit

/-- The data part of a frame, from the byte at index `j` on: 5 bits each, and 6 zero bits after an odd index (R102,
R105). -/
def emitData (j : Nat) : List Byte → List Call
  | [] => []
  | v :: d =>
    emitBits v slotBits ++ (if j % 2 = 1 then (List.replicate oddPad false).flatMap emitBit else []) ++
      emitData (j + 1) d

/-- Frame(stb, cmd, d): strobe low, the command's 8 bits, at most 14 data bytes, strobe high (R102, R103). -/
def frame (stb : Pin) (cmd : Byte) (d : List Byte) : List Call :=
  .setLevel stb false :: (emitBits cmd cmdBits ++ emitData 0 (d.take maxData) ++ [.setLevel stb true])

/-- One wire frame to a unit: every unit operation is one of these (R120). -/
def State.sendFrame (u : UnitId) (cmd : Byte) (d : List Byte) (s : State) : State × Answer :=
  s.performAll (frame (unitPins u).stb cmd d)

end Sys2Proof.Machine
end

