-- ==== Sys2Proof/Machine/Unit.lean ====
section
/-! DEFINITION. The Display Unit operations (R120 to R125) and the meanings of the five wire commands, each of which is
its unit operation on the unit it names. A unit operation has no lifecycle check and no response: its result goes back to
its caller (R106, R120). -/

namespace Sys2Proof.Machine

/-- UnitSetDisplayMode(u) (R121). -/
def State.unitSetDisplayMode (u : UnitId) (s : State) : State × Answer := s.sendFrame u s.cfg.displayModeCmd []

/-- UnitSetDataMode(u) (R122). -/
def State.unitSetDataMode (u : UnitId) (s : State) : State × Answer := s.sendFrame u s.cfg.dataModeCmd []

/-- UnitSetPower(u, on, b) (R124). -/
def State.unitSetPower (on : Bool) (b : Byte) (u : UnitId) (s : State) : State × Answer :=
  s.sendFrame u (powerByte on b) []

/-- UnitWriteColumns(u, d) (R125). -/
def State.unitWriteColumns (u : UnitId) (d : List Byte) (s : State) : State × Answer :=
  s.sendFrame u cmdAddrWriteByte d

/-- CMD_DISPLAY_MODE (R62, R121). -/
def execCmdDisplayMode (u : UnitId) (s : State) : Host.Outcome State Fault Refusal :=
  .next (State.unitReturn (s.unitSetDisplayMode u))

/-- CMD_DATA_MODE (R63, R122). -/
def execCmdDataMode (u : UnitId) (s : State) : Host.Outcome State Fault Refusal :=
  .next (State.unitReturn (s.unitSetDataMode u))

/-- CMD_ADDR_WRITE (R64, R125). -/
def execCmdAddrWrite (u : UnitId) (d : List Byte) (s : State) : Host.Outcome State Fault Refusal :=
  .next (State.unitReturn (s.unitWriteColumns u d))

/-- CMD_POWER_ON with brightness field `b` (R65, R124). -/
def execCmdPowerOn (u : UnitId) (b : BitVec 3) (s : State) : Host.Outcome State Fault Refusal :=
  .next (State.unitReturn (s.unitSetPower true (b.setWidth 8) u))

/-- CMD_POWER_OFF (R66, R124). -/
def execCmdPowerOff (u : UnitId) (s : State) : Host.Outcome State Fault Refusal :=
  .next (State.unitReturn (s.unitSetPower false 0 u))

end Sys2Proof.Machine
end

