-- ==== Sys2Proof/Machine/Screen.lean ====
section
/-! DEFINITION. The Screen (R140 to R149): INIT, the mode and power operations on both units, WriteFrame, WRITE_FRAME and
SHUTDOWN. -/

namespace Sys2Proof.Machine

/-! ## INIT (R141) -/

/-- The pin calls of INIT: for the left unit and then the right, export its clk, dio and stb, then set each to output. -/
def configureCalls : List Call :=
  [UnitId.left, UnitId.right].flatMap fun u =>
    (pinOrder u).map Call.exportPin ++ (pinOrder u).map Call.setDirOut

/-- INIT: READY if every call succeeded, else INIT_FAILED and `ERR_PIN_CONFIG`, with no later call. -/
def State.initOp (s : State) : State × Status :=
  match s.performAll configureCalls with
  | (t, .ok) => ({ t with life := .ready }, .ok)
  | (t, .err) => ({ t with life := .initFailed }, .errPinConfig)

/-- INIT, allowed only in UNCONFIGURED (R141, R224). -/
def execInit (s : State) : Host.Outcome State Fault Refusal :=
  .next (s.runIn .unconfigured State.initOp)

/-! ## Both units, left first (R50, R149) -/

/-- A unit operation on the left unit and then, unless that failed, on the right. -/
def State.bothUnits (op : UnitId → State → State × Answer) (s : State) : State × Answer :=
  andThen (op .left s) (op .right)

/-- A Screen operation that is one unit operation on both units. -/
def State.bothOp (op : UnitId → State → State × Answer) (s : State) : State × Status :=
  let r := s.bothUnits op
  (r.1, lineStatus r.2)

/-- SET_DISPLAY_MODE (R142). -/
def execSetDisplayMode (s : State) : Host.Outcome State Fault Refusal :=
  .next (s.runIn .ready (State.bothOp State.unitSetDisplayMode))

/-- SET_DATA_MODE (R143). -/
def execSetDataMode (s : State) : Host.Outcome State Fault Refusal :=
  .next (s.runIn .ready (State.bothOp State.unitSetDataMode))

/-- SET_POWER off; `b` is carried to UnitSetPower, which ignores it (R123, R144). -/
def execSetPowerOff (b : Byte) (s : State) : Host.Outcome State Fault Refusal :=
  .next (s.runIn .ready (State.bothOp (State.unitSetPower false b)))

/-- SET_POWER on, with brightness `b` (R144). -/
def execSetPowerOn (b : Byte) (s : State) : Host.Outcome State Fault Refusal :=
  .next (s.runIn .ready (State.bothOp (State.unitSetPower true b)))

/-! ## WriteFrame (R145) -/

/-- `fb` and `st` are set from WriteFrame's arguments, the columns zero-padded at the tail. -/
def State.loadFrame (bytes : List Byte) (st : Byte) (s : State) : State :=
  { s with fb := some (pad27 bytes), st := some st }

/-- The columns in `fb`. -/
def State.columns (s : State) : List Byte := s.fb.getD []

/-- The status byte in `st`. -/
def State.statusByte (s : State) : Byte := s.st.getD 0

/-- UnitWriteColumns of the unit's part of the frame registers (R42). -/
def State.sendColumns (u : UnitId) (s : State) : State × Answer :=
  match u with
  | .left => s.unitWriteColumns .left (leftData s.columns)
  | .right => s.unitWriteColumns .right (rightData s.columns s.statusByte)

/-- WriteFrame(bytes, s): load the frame registers, then both units, left first. -/
def State.writeFrame (bytes : List Byte) (st : Byte) (s : State) : State × Answer :=
  (s.loadFrame bytes st).bothUnits State.sendColumns

/-- WriteFrame as a host operation. -/
def State.writeFrameOp (st : Byte) (bytes : List Byte) (s : State) : State × Status :=
  let r := s.writeFrame bytes st
  (r.1, lineStatus r.2)

/-- WRITE_FRAME: more than 27 bytes is a contract error, before the lifecycle check (R73 check 8, R146). -/
def execWriteFrame (st : Byte) (bytes : List Byte) (s : State) : Host.Outcome State Fault Refusal :=
  .next (if cols < bytes.length then s.finish .errContract else s.runIn .ready (State.writeFrameOp st bytes))

/-! ## SHUTDOWN (R147, R148) -/

/-- The release calls: clk, dio, stb of the left unit, then of the right (R148). -/
def releaseCalls : List Call := [UnitId.left, UnitId.right].flatMap fun u => (pinOrder u).map Call.release

/-- The blanking frame, sent after a successful power-off, or after a failed one where the configuration says so. -/
def State.blankPhase (powered : Answer) (s : State) : State × Answer :=
  if powered = .ok ∨ s.cfg.shutdownBlankAfterPowerErr = true then s.writeFrame (zeros cols) 0 else (s, .ok)

/-- SHUTDOWN: power off, blank, release the handles, release every pin; the first error met is the status. -/
def State.shutdownOp (s : State) : State × Status :=
  let power := s.bothUnits (State.unitSetPower false 0)
  let e1 := noteError none power.2 .errLineWrite
  let blank := power.1.blankPhase power.2
  let e2 := noteError e1 blank.2 .errLineWrite
  let freed := blank.1.releaseHandles.performEvery releaseCalls
  let e3 := noteError e2 freed.2 .errRelease
  ({ freed.1 with life := .released }, reported e3)

/-- SHUTDOWN, allowed only in READY (R147, R224). -/
def execShutdown (s : State) : Host.Outcome State Fault Refusal :=
  .next (s.runIn .ready State.shutdownOp)

end Sys2Proof.Machine
end

