-- ==== Sys2Proof/Machine/Renderer.lean ====
section
/-! DEFINITION. The renderer and the marquee scroll engine (R190 to R201). -/

namespace Sys2Proof.Machine

/-- RENDER loads `buf` and `L` from the expanded text; `start` is 0 at the start of each RENDER (R30, R35, R190). -/
def State.loadText (text : List Nat) (s : State) : State :=
  let b := expand s.cfg text
  { s with buf := some b, L := some b.length, start := some 0 }

/-- The encoded buffer in `buf`. -/
def State.buffer (s : State) : List Byte := s.buf.getD []

/-- The encoded length in `L`. -/
def State.encodedLength (s : State) : Nat := s.L.getD 0

/-- StaticRender: one centred frame, no delay (R192, R195). -/
def State.staticRender (st : Byte) (s : State) : State × Answer := s.writeFrame (centred s.buffer) st

/-- Step `i` of the scroll: `start` is computed before the frame (90_conflicts.md C2). -/
def State.setStep (i : Nat) (s : State) : State := { s with i := some i, start := some (cursor i) }

/-- The scroll's window `buf[start:i]` (R194). -/
def State.window (s : State) : List Byte := slice s.buffer (s.start.getD 0) (s.i.getD 0)

/-- One scroll step: the window as a frame, then `Delay(128)`; after a failed frame no delay (R194 to R196). -/
def State.scrollStep (st : Byte) (i : Nat) (s : State) : State × Answer :=
  let t := s.setStep i
  andThen (t.writeFrame t.window st) fun t => (t.delay stepMs, .ok)

/-- `n` scroll steps from step `i` on, ending at the first failed frame (R194, R196). -/
def State.scrollFrom (st : Byte) : Nat → Nat → State → State × Answer
  | 0, _, s => (s, .ok)
  | n + 1, i, s => andThen (s.scrollStep st i) (State.scrollFrom st n (i + 1))

/-- ScrollRender: steps 1 to `L` (R194). It stops after step `L` and does not loop (R197). -/
def State.scrollRender (st : Byte) (s : State) : State × Answer := s.scrollFrom st s.encodedLength 1

/-- RENDER's choice of path: static for `L` at most 27, else scroll (R190, R191). -/
def State.renderOp (st : Byte) (text : List Nat) (s : State) : State × Status :=
  let t := s.loadText text
  let r := if t.encodedLength ≤ cols then t.staticRender st else t.scrollRender st
  (r.1, lineStatus r.2)

/-- RENDER: more than `MAX_TEXT` scalars is a contract error, before the lifecycle check (R73 check 9, R190). -/
def execRender (st : Byte) (text : List Nat) (s : State) : Host.Outcome State Fault Refusal :=
  .next (if s.cfg.maxText < text.length then s.finish .errContract else s.runIn .ready (State.renderOp st text))

end Sys2Proof.Machine
end

