-- ==== Sys2Proof/Machine/Dispatch.lean ====
section
/-! DEFINITION. The meaning of every instruction: one arm per constructor of `Instr`, one direct call each. -/

namespace Sys2Proof.Machine

def exec (i : Instr) (s : State) : Host.Outcome State Fault Refusal :=
  match i with
  | .cmdDisplayMode u => Sys2Proof.Machine.execCmdDisplayMode u s
  | .cmdDataMode u => Sys2Proof.Machine.execCmdDataMode u s
  | .cmdAddrWrite u d => Sys2Proof.Machine.execCmdAddrWrite u d s
  | .cmdPowerOn u b => Sys2Proof.Machine.execCmdPowerOn u b s
  | .cmdPowerOff u => Sys2Proof.Machine.execCmdPowerOff u s
  | .init => Sys2Proof.Machine.execInit s
  | .setDisplayMode => Sys2Proof.Machine.execSetDisplayMode s
  | .setDataMode => Sys2Proof.Machine.execSetDataMode s
  | .setPowerOff b => Sys2Proof.Machine.execSetPowerOff b s
  | .setPowerOn b => Sys2Proof.Machine.execSetPowerOn b s
  | .writeFrame st bytes => Sys2Proof.Machine.execWriteFrame st bytes s
  | .render st text => Sys2Proof.Machine.execRender st text s
  | .shutdown => Sys2Proof.Machine.execShutdown s

end Sys2Proof.Machine
end

