-- ==== Sys2Proof/WellFormed.lean ====
section
/-! DEFINITION. Which instructions have an encoding: the payload count fits the 16-bit field `N` (R70) and the
scalars of a text are scalar values (R71, R73 check 7). Every other operand's range is its type. -/

namespace Sys2Proof

/-- The most payload items the header's 16-bit count `N` can say (R70). -/
abbrev maxCount : Nat := 65535

/-- The well-formed instructions. The contract bounds (27 bytes, `MAX_TEXT` scalars) are no part of it: a request
over them is well formed and ends with `ERR_CONTRACT` (R73 checks 8 and 9). -/
def Instr.wf : Instr → Bool
  | .cmdDisplayMode _ => true
  | .cmdDataMode _ => true
  | .cmdAddrWrite _ _ => true
  | .cmdPowerOn _ _ => true
  | .cmdPowerOff _ => true
  | .init => true
  | .setDisplayMode => true
  | .setDataMode => true
  | .setPowerOff _ => true
  | .setPowerOn _ => true
  | .writeFrame _ bytes => decide (bytes.length ≤ maxCount)
  | .render _ text => decide (text.length ≤ maxCount) && text.all fun c => decide (isScalar c)
  | .shutdown => true

end Sys2Proof
end

