-- ==== Sys2Proof/Decode.lean ====
section
/-! DEFINITION. Decoding: a host request's bytes (R70 to R73) and a wire frame's bytes (R61 to R66) to an
instruction, or to the name of the check that fails; then the encoders, from the same tables; then the two functions
on the opcode table's words. -/

namespace Sys2Proof

/-- Why bytes are no instruction. The first eight are checks of R73, all answered `ERR_ILLEGAL`; the last three are
wire frames the block never sends (R69). -/
inductive DecodeError where
  /-- Check 1: fewer than 4 bytes. -/
  | tooShort
  /-- Check 1: the length is not the one of R71. -/
  | badLength
  /-- Check 2: `OP` is 0x0 or 0x8 to 0xF. -/
  | reservedOp
  /-- Check 3: `RSV` is not 0. -/
  | reservedBits
  /-- Check 4: `ON` = 1 and not SET_POWER. -/
  | onFlag
  /-- Check 5: `ARG` is not 0 where it must be. -/
  | argNotZero
  /-- Check 6: `N` is not 0 where there is no payload. -/
  | countNotZero
  /-- Check 7: a scalar of the text is no Unicode scalar value. -/
  | badScalar
  /-- A wire frame without a command byte. -/
  | noCommand
  /-- A command byte that is none of the five of R61. -/
  | notACommand
  /-- Data after a command other than `CMD_ADDR_WRITE` (R61, R69). -/
  | dataAfterCommand
deriving DecidableEq, Repr

/-- What a decoder answers. -/
inductive Decoded where
  | instr (i : Instr)
  | illegal (why : DecodeError)
deriving DecidableEq, Repr

/-- What a decoder reads, where it reads an instruction. -/
def Decoded.toOption : Decoded → Option Instr
  | .instr i => some i
  | .illegal _ => none

/-! ## Host requests -/

/-- The header's fields (R70). -/
structure Header where
  op : Nat
  on : Bool
  rsv : Nat
  arg : Byte
  count : Nat
deriving DecidableEq, Repr

/-- The fields of the first four bytes (R70): `OP` is byte 0's bits 3:0, `ON` its bit 4, `RSV` its bits 7:5, `ARG`
is byte 1, and `N` = byte2 + 256*byte3. -/
def readHeader (b0 b1 b2 b3 : Byte) : Header where
  op := b0.toNat % 16
  on := b0.getLsbD 4
  rsv := b0.toNat / 32
  arg := b1
  count := b2.toNat + 256 * b3.toNat

/-- How many payload bytes follow a header, from `OP` and `N` alone (R71, R75). A reserved `OP` has no payload
(log 20). -/
def payloadLength (op count : Nat) : Nat :=
  if op = 5 then count else if op = 6 then 4 * count else 0

/-- The total length of a request, from its header alone (R71, R75). -/
def Header.requestLength (h : Header) : Nat := 4 + payloadLength h.op h.count

/-- A RENDER payload as scalars: four bytes each, little-endian (R71). -/
def scalarsOf : List Byte → List Nat
  | b0 :: b1 :: b2 :: b3 :: rest =>
    (b0.toNat + 2 ^ 8 * b1.toNat + 2 ^ 16 * b2.toNat + 2 ^ 24 * b3.toNat) :: scalarsOf rest
  | _ => []

/-- Checks 1 to 7 of R73 in their order (check 1's first half, the missing header, is `decodeRequest`'s); the
first one that fails. -/
def Header.firstFailedCheck (h : Header) (payload : List Byte) : Option DecodeError :=
  if payload.length ≠ payloadLength h.op h.count then some .badLength
  else if h.op = 0 ∨ 8 ≤ h.op then some .reservedOp
  else if h.rsv ≠ 0 then some .reservedBits
  else if h.on = true ∧ h.op ≠ 4 then some .onFlag
  else if h.arg ≠ 0 ∧ (h.op = 1 ∨ h.op = 2 ∨ h.op = 3 ∨ h.op = 7) then some .argNotZero
  else if h.count ≠ 0 ∧ h.op ≠ 5 ∧ h.op ≠ 6 then some .countNotZero
  else if h.op = 6 ∧ ¬ ∀ c ∈ scalarsOf payload, isScalar c then some .badScalar
  else none

/-- The operation of a header whose checks pass (R72). -/
def Header.operation (h : Header) (payload : List Byte) : Decoded :=
  match h.op with
  | 1 => .instr .init
  | 2 => .instr .setDisplayMode
  | 3 => .instr .setDataMode
  | 4 => .instr (if h.on then .setPowerOn h.arg else .setPowerOff h.arg)
  | 5 => .instr (.writeFrame h.arg payload)
  | 6 => .instr (.render h.arg (scalarsOf payload))
  | 7 => .instr .shutdown
  | _ => .illegal .reservedOp

/-- Decoding a host request (R73 checks 1 to 7). -/
def decodeRequest : List Byte → Decoded
  | b0 :: b1 :: b2 :: b3 :: payload =>
    match (readHeader b0 b1 b2 b3).firstFailedCheck payload with
    | some why => .illegal why
    | none => (readHeader b0 b1 b2 b3).operation payload
  | _ => .illegal .tooShort

/-! ## Wire commands -/

/-- A command without data: data after it is refused (R61, R69). -/
def commandOnly (i : Instr) : List Byte → Decoded
  | [] => .instr i
  | _ :: _ => .illegal .dataAfterCommand

/-- Decoding the bytes of a wire frame on the unit `u`: the command byte, then the data bytes (R61 to R66). The
commands of fixed value are matched first; the block itself never decodes a command byte (R69, log 8). -/
def decodeWire (c : Config) (u : UnitId) : List Byte → Decoded
  | [] => .illegal .noCommand
  | cmd :: d =>
    if cmd = cmdAddrWriteByte then .instr (.cmdAddrWrite u d)
    else if cmd.extractLsb' 3 5 = 0b10001#5 then commandOnly (.cmdPowerOn u (cmd.extractLsb' 0 3)) d
    else if cmd = cmdPowerOffByte then commandOnly (.cmdPowerOff u) d
    else if cmd = c.displayModeCmd then commandOnly (.cmdDisplayMode u) d
    else if cmd = c.dataModeCmd then commandOnly (.cmdDataMode u) d
    else .illegal .notACommand

/-! ## Encoders -/

/-- The four header bytes (R70). -/
def headerBytes (op : Nat) (on : Bool) (arg : Byte) (count : Nat) : List Byte :=
  [BitVec.ofNat 8 (op + 16 * on.toNat), arg, BitVec.ofNat 8 count, BitVec.ofNat 8 (count / 256)]

/-- A scalar value as four bytes, little-endian (R71). -/
def scalarBytes (c : Nat) : List Byte :=
  [BitVec.ofNat 8 c, BitVec.ofNat 8 (c / 2 ^ 8), BitVec.ofNat 8 (c / 2 ^ 16), BitVec.ofNat 8 (c / 2 ^ 24)]

/-- The bytes of an instruction: a wire command's command byte and data bytes (R61 to R66), a host request's header
and payload (R70 to R72). -/
def encode (c : Config) : Instr → List Byte
  | .cmdDisplayMode _ => [c.displayModeCmd]
  | .cmdDataMode _ => [c.dataModeCmd]
  | .cmdAddrWrite _ d => cmdAddrWriteByte :: d
  | .cmdPowerOn _ b => [0b10001#5 ++ b]
  | .cmdPowerOff _ => [cmdPowerOffByte]
  | .init => headerBytes 1 false 0 0
  | .setDisplayMode => headerBytes 2 false 0 0
  | .setDataMode => headerBytes 3 false 0 0
  | .setPowerOff b => headerBytes 4 false b 0
  | .setPowerOn b => headerBytes 4 true b 0
  | .writeFrame st bytes => headerBytes 5 false st bytes.length ++ bytes
  | .render st text => headerBytes 6 false st text.length ++ text.flatMap scalarBytes
  | .shutdown => headerBytes 7 false 0 0

/-! ## Words of the opcode table -/

/-- The host request of a table word: the header read little-endian from the word, then the payload its header asks
for, of zero bytes. -/
def tableRequest (w : Nat) : List Byte :=
  let b := fun k => BitVec.ofNat 8 (w / 2 ^ (8 * k))
  let h := readHeader (b 0) (b 1) (b 2) (b 3)
  [b 0, b 1, b 2, b 3] ++ zeros (payloadLength h.op h.count)

/-- A word of spec/opcode_table.json is a wire command byte where the table gives the row at most 8 bits and bit 7 is
set: every command of fixed value has bit 7 set (R64 to R66), and a host header never has, bit 7 being in `RSV` (R70).
The rows WRITE_FRAME and RENDER fix only the header's first byte, so they too are 8-bit words (log 8). -/
def isWireWord (nbits w : Nat) : Bool := decide (nbits ≤ 8) && w.testBit 7

/-- The instruction the decoder reads from a word of spec/opcode_table.json: a wire command byte, taken on the left unit
(the byte names no unit, log 8), or a host request header. -/
def decodeTableWord (nbits w : Nat) : Option Instr :=
  if isWireWord nbits w then (decodeWire Config.reference .left [BitVec.ofNat 8 w]).toOption
  else (decodeRequest (tableRequest w)).toOption

end Sys2Proof
end

