-- ==== Sys2Proof/Machine/Fetch.lean ====
section
/-! DEFINITION. Where the next instruction comes from: a called-for Display Unit operation, else the host request at the
program's position (R22, R26). -/

namespace Sys2Proof.Machine

/-- What the machine does next. -/
inductive Fetched where
  /-- A Display Unit operation is called for: `s` is the state with the call taken. -/
  | unit (d : Decoded) (s : State)
  /-- The block performs the request in hand (`busy` = 1). -/
  | request (d : Decoded)
  /-- The block is free and a request waits: it accepts it. -/
  | accept
  /-- The block is free and no request waits (R251). -/
  | idle
  /-- The block is busy with no request: no run reaches this (log 21). -/
  | noRequest
deriving DecidableEq, Repr

/-- The request at the program's position (R22). -/
def State.requestInHand (s : State) : Option (List Byte) := s.program[s.pos]?

/-- The next thing to do. While `busy` = 1 the host has no move: no further request is accepted (R26). -/
def State.fetch (s : State) : Fetched :=
  match s.unitCall with
  | some (u, bytes) => .unit (decodeWire s.cfg u bytes) { s with unitCall := none }
  | none =>
    match s.busy, s.requestInHand with
    | true, some bytes => .request (decodeRequest bytes)
    | true, none => .noRequest
    | false, some _ => .accept
    | false, none => .idle

/-- A request that fails one of the checks 1 to 7 ends with `ERR_ILLEGAL` and no line-driver call (R73). -/
def State.rejectRequest (s : State) : State := s.finish .errIllegal

/-- The host hands the block a program: its requests in order, the first one next (R22, log 6). -/
def State.load (program : List (List Byte)) (s : State) : State := { s with program := program, pos := 0 }

/-- `r` put at index `n` of a program; a gap is filled with empty requests. -/
def placeRequest (r : List Byte) : Nat → List (List Byte) → List (List Byte)
  | 0, [] => [r]
  | 0, _ :: rest => r :: rest
  | n + 1, [] => [] :: placeRequest r n []
  | n + 1, q :: rest => q :: placeRequest r n rest

/-- A table word set up to be the next instruction: a wire command as the called-for unit operation on the left unit, a
host request as the request in hand, already accepted (log 6, log 7). -/
def State.placeWord (s : State) (nbits w : Nat) : State :=
  if isWireWord nbits w then { s with unitCall := some (.left, [BitVec.ofNat 8 w]) }
  else { s with unitCall := none, busy := true, program := placeRequest (tableRequest w) s.pos s.program }

end Sys2Proof.Machine
end

