-- ==== Sys2Proof/Machine/Step.lean ====
section
/-! DEFINITION. One step of the machine, and a table word placed where a step fetches. -/

namespace Sys2Proof.Machine

/-- One step: perform the called-for unit operation, or perform the request in hand, or accept the next request, or
wait (R22, R26, R251, log 5). -/
def step (s : State) : Host.Outcome State Fault Refusal :=
  match s.fetch with
  | .unit (.instr i) t => exec i t
  | .unit (.illegal _) _ => .refused .notAWireCommand
  | .request (.instr i) => exec i s
  | .request (.illegal _) => .next s.rejectRequest
  | .accept => .next s.accept
  | .idle => .next s
  | .noRequest => .fault .busyWithoutRequest

/-- `s` with the table word stored where `step` fetches its next instruction. -/
def State.withFetchWord (s : State) (nbits w : Nat) : State := s.placeWord nbits w

end Sys2Proof.Machine
end

