-- ==== Sys2Proof/Machine/Assembler.lean ====
section
/-! DEFINITION. The text form of requests (R76): one request a line, `;` starts a comment, numbers are decimal or `0x`
hexadecimal. A program text gives the requests of a program, or nothing where a line is not of the form. What R76 leaves
open (blanks, quotes, letter case) is log 19. -/

namespace Sys2Proof.Machine

/-- The tokens of a line. -/
inductive Token where
  | word (w : List Char)
  | comma
  | openList
  | closeList
  | text (t : List Nat)
deriving DecidableEq, Repr

/-- What the reader of a line is inside of; the characters read so far, last first. -/
inductive LexMode where
  | plain
  | inWord (acc : List Char)
  | inText (acc : List Nat)
deriving DecidableEq, Repr

/-- A letter, a digit or an underscore. -/
def isWordChar (c : Char) : Bool := c.isAlphanum || c = '_'

/-- A character that is no part of a word or a text: a blank, a comma or a bracket. -/
def punctuation (c : Char) : Option (List Token) :=
  if c = ' ' ∨ c = '\t' ∨ c = '\r' then some []
  else if c = ',' then some [.comma]
  else if c = '[' then some [.openList]
  else if c = ']' then some [.closeList]
  else none

/-- The token that ends here. -/
def LexMode.flush : LexMode → List Token
  | .plain => []
  | .inWord acc => [.word acc.reverse]
  | .inText acc => [.text acc.reverse]

/-- One more character of a word. -/
def LexMode.push (c : Char) : LexMode → LexMode
  | .inWord acc => .inWord (c :: acc)
  | _ => .inWord [c]

/-- The tokens of a line, up to its end or its comment. Inside quotes every character up to the closing quote is text
(log 19). -/
def lex : LexMode → List Char → Option (List Token)
  | .inText _, [] => none
  | .inText acc, c :: cs =>
    if c = '"' then (LexMode.flush (.inText acc) ++ ·) <$> lex .plain cs else lex (.inText (c.toNat :: acc)) cs
  | m, [] => some m.flush
  | m, c :: cs =>
    if isWordChar c then lex (m.push c) cs
    else if c = '"' then (m.flush ++ ·) <$> lex (.inText []) cs
    else if c = ';' then some m.flush
    else match punctuation c with
      | some ts => (m.flush ++ ts ++ ·) <$> lex .plain cs
      | none => none

/-- The value of a decimal or hexadecimal digit. -/
def digitValue (c : Char) : Option Nat :=
  if 0x30 ≤ c.toNat ∧ c.toNat ≤ 0x39 then some (c.toNat - 0x30)
  else if 0x61 ≤ c.toNat ∧ c.toNat ≤ 0x66 then some (c.toNat - 0x57)
  else if 0x41 ≤ c.toNat ∧ c.toNat ≤ 0x46 then some (c.toNat - 0x37)
  else none

/-- Digits in a base, after the value `acc`. -/
def readDigits (base acc : Nat) : List Char → Option Nat
  | [] => some acc
  | c :: cs =>
    match digitValue c with
    | some d => if d < base then readDigits base (acc * base + d) cs else none
    | none => none

/-- A number: `0x` and hexadecimal digits, or decimal digits (R76). -/
def number : List Char → Option Nat
  | '0' :: 'x' :: d :: ds => readDigits 16 0 (d :: ds)
  | d :: ds => readDigits 10 0 (d :: ds)
  | [] => none

/-- A number from 0 to 255 (R76). -/
def byteNumber (w : List Char) : Option Byte :=
  match number w with
  | some n => if n ≤ 255 then some (BitVec.ofNat 8 n) else none
  | none => none

/-- The rest of a list of values after its first one. -/
def moreValues : List Token → Option (List Byte)
  | [.closeList] => some []
  | .comma :: .word w :: rest =>
    match byteNumber w, moreValues rest with
    | some v, some vs => some (v :: vs)
    | _, _ => none
  | _ => none

/-- A list of values after its opening bracket. -/
def values : List Token → Option (List Byte)
  | [.closeList] => some []
  | .word w :: rest =>
    match byteNumber w, moreValues rest with
    | some v, some vs => some (v :: vs)
    | _, _ => none
  | _ => none

/-- The request forms of one word (R76). -/
def plainRequest (w : List Char) : Option Instr :=
  if w = ['i', 'n', 'i', 't'] then some .init
  else if w = ['s', 'e', 't', '_', 'd', 'i', 's', 'p', 'l', 'a', 'y', '_', 'm', 'o', 'd', 'e'] then some .setDisplayMode
  else if w = ['s', 'e', 't', '_', 'd', 'a', 't', 'a', '_', 'm', 'o', 'd', 'e'] then some .setDataMode
  else if w = ['s', 'h', 'u', 't', 'd', 'o', 'w', 'n'] then some .shutdown
  else none

/-- `set_power on, b` and `set_power off, b` (R76). -/
def powerRequest (w x : List Char) (b : Byte) : Option Instr :=
  if w = ['s', 'e', 't', '_', 'p', 'o', 'w', 'e', 'r'] then
    if x = ['o', 'n'] then some (.setPowerOn b)
    else if x = ['o', 'f', 'f'] then some (.setPowerOff b)
    else none
  else none

/-- The request that a line's tokens spell (R76); `set_power off` means `set_power off, 0`. -/
def parseRequest : List Token → Option Instr
  | [.word w] => plainRequest w
  | [.word w, .word x] => if x = ['o', 'f', 'f'] then powerRequest w x 0 else none
  | [.word w, .word x, .comma, .word n] => (byteNumber n).bind (powerRequest w x)
  | [.word w, .word n, .comma, .text t] =>
    if w = ['r', 'e', 'n', 'd', 'e', 'r'] then (byteNumber n).map fun st => .render st t else none
  | .word w :: .word n :: .comma :: .openList :: rest =>
    if w = ['w', 'r', 'i', 't', 'e', '_', 'f', 'r', 'a', 'm', 'e'] then
      match byteNumber n, values rest with
      | some st, some vs => some (.writeFrame st vs)
      | _, _ => none
    else none
  | _ => none

/-- The requests of one line: none for a line of blanks or comment, else the bytes of the one it spells. -/
def assembleLine (c : Config) (line : List Char) : Option (List (List Byte)) :=
  match lex .plain line with
  | none => none
  | some [] => some []
  | some ts => (parseRequest ts).bind fun i => if i.wf then some [encode c i] else none

/-- The lines of a text. -/
def splitLines : List Char → List (List Char)
  | [] => [[]]
  | c :: cs =>
    if c = '\n' then [] :: splitLines cs
    else match splitLines cs with
      | l :: ls => (c :: l) :: ls
      | [] => [[c]]

/-- The requests of a list of lines, in order. -/
def assembleLines (c : Config) : List (List Char) → Option (List (List Byte))
  | [] => some []
  | l :: ls =>
    match assembleLine c l, assembleLines c ls with
    | some rs, some more => some (rs ++ more)
    | _, _ => none

/-- The program of a text (R22, R76). -/
def assemble (c : Config) (text : List Char) : Option (List (List Byte)) := assembleLines c (splitLines text)

end Sys2Proof.Machine
end

