-- ==== Sys2Proof/Safety.lean ====
section
/-! DEFINITION. The terms claims about the block are made in, each written from the spec's formulas and not from the
machine's procedures: the wire layout by bit position (R44, R60, R64 to R68), the screen frames by column (R42, R192,
R194), what a request leaves behind (R28), the views of the trace (R25, R28), the machine's invariants, and the hazards a
host must respect (R258, R260). -/

namespace Sys2Proof.Machine

/-! ## Wire layout -/

/-- The strobe of a unit (R31). -/
def strobe : UnitId → Pin
  | .left => .stbL
  | .right => .stbR

/-- `B(n)`: the bit slots of a wire frame with `n` data bytes (R68). -/
def slotCount (n : Nat) : Nat := 8 + 5 * n + 6 * (n / 2)

/-- `E(n)`: the line events of a wire frame with `n` data bytes (R68). -/
def eventCount (n : Nat) : Nat := 2 + 3 * slotCount n

/-- The slot at which data byte `i` of a wire frame starts (R44). -/
def dataStart (i : Nat) : Nat := 8 + 16 * (i / 2) + 5 * (i % 2)

/-- The bit that slot `k` of a wire frame carries: 8 command bits, then 16 slots for each pair of data bytes, of which
the first 5 are the even byte's, the next 5 the odd byte's and the last 6 zero (R40, R44, R67, R105). -/
def slotBit (cmd : Byte) (d : List Byte) (k : Nat) : Bool :=
  if k < 8 then cmd.getLsbD k
  else if (k - 8) % 16 < 5 then (d.getD (2 * ((k - 8) / 16)) 0).getLsbD ((k - 8) % 16)
  else if (k - 8) % 16 < 10 then (d.getD (2 * ((k - 8) / 16) + 1) 0).getLsbD ((k - 8) % 16 - 5)
  else false

/-- The bits of a wire frame in slot order; at most 14 data bytes count (R103). -/
def frameBits (cmd : Byte) (d : List Byte) : List Bool :=
  (List.range (slotCount (min d.length 14))).map (slotBit cmd d)

/-- The events of one bit slot, every call answered `ok` (R60, R100). -/
def slotEvents (b : Bool) : List Event := [.lvl .clk false .ok, .lvl .dio b .ok, .lvl .clk true .ok]

/-- The events of one wire frame, every call answered `ok` (R60). -/
def frameEvents (stb : Pin) (cmd : Byte) (d : List Byte) : List Event :=
  .lvl stb false .ok :: ((frameBits cmd d).flatMap slotEvents ++ [.lvl stb true .ok])

/-- The same command-only frame to the left unit and then to the right (R50, R142 to R144). -/
def bothCommand (cmd : Byte) : List Event := frameEvents .stbL cmd [] ++ frameEvents .stbR cmd []

/-- One screen frame, column `c` holding `col c`: columns 0 to 13 to the left unit, columns 14 to 26 and the status
byte to the right (R42, R145). -/
def screenEvents (col : Nat → Byte) (st : Byte) : List Event :=
  frameEvents .stbL 0xC0 ((List.range 14).map col) ++
    frameEvents .stbR 0xC0 ((List.range 13).map (fun j => col (14 + j)) ++ [st])

/-- Column `c` of a frame written as given, zero past its end (R145). -/
def plainColumn (bytes : List Byte) (c : Nat) : Byte := bytes.getD c 0

/-- Column `c` of a text centred in 27 columns, `floor((27 - L) / 2)` zeros on the left (R192, R193). -/
def centredColumn (buf : List Byte) (c : Nat) : Byte :=
  if (27 - buf.length) / 2 ≤ c then buf.getD (c - (27 - buf.length) / 2) 0 else 0

/-- Column `c` of scroll frame `i`: `buf[start + c]` if `start + c < i`, with `start = max(0, i - 27)`, else 0 (R194). -/
def scrollColumn (buf : List Byte) (i c : Nat) : Byte :=
  if (i - 27) + c < i then buf.getD ((i - 27) + c) 0 else 0

/-- A complete scroll: for each step 1 to `L` its screen frame, then one wait of 128 ms (R194, R195, R201). -/
def scrollEvents (buf : List Byte) (st : Byte) : List Event :=
  (List.range buf.length).flatMap fun k => screenEvents (scrollColumn buf (k + 1)) st ++ [.wait 128]

/-- The pin calls of a successful INIT (R141). -/
def initEvents : List Event :=
  [.exp .clk .ok, .exp .dio .ok, .exp .stbL .ok, .dir .clk .ok, .dir .dio .ok, .dir .stbL .ok,
   .exp .clk .ok, .exp .dio .ok, .exp .stbR .ok, .dir .clk .ok, .dir .dio .ok, .dir .stbR .ok]

/-- The pins SHUTDOWN releases, in order (R148). -/
def releaseOrder : List Pin := [.clk, .dio, .stbL, .clk, .dio, .stbR]

/-- The events of a SHUTDOWN in which every call is answered `ok` (R147). -/
def shutdownEvents : List Event :=
  bothCommand 0x80 ++ screenEvents (fun _ => 0) 0 ++ [.relH] ++ releaseOrder.map fun p => .rel p .ok

/-! ## Events -/

/-- The answer an event records, for the events that are answered calls (R11, R27). -/
def Event.answer? : Event → Option Answer
  | .lvl _ _ r => some r
  | .exp _ r => some r
  | .dir _ r => some r
  | .rel _ r => some r
  | .relH => none
  | .wait _ => none
  | .resp _ => none

/-- An event that is a line-driver call with an answer. -/
def Event.isCall (e : Event) : Bool := e.answer?.isSome

/-- An event that is a line write. -/
def Event.isWrite : Event → Bool
  | .lvl _ _ _ => true
  | _ => false

/-- An event that configures a pin. -/
def Event.isConfig : Event → Bool
  | .exp _ _ => true
  | .dir _ _ => true
  | _ => false

/-- The pin an event releases. -/
def Event.releasedPin : Event → Option Pin
  | .rel p _ => some p
  | _ => none

/-- The event of the same call answered `err`. -/
def Event.failed : Event → Event
  | .lvl p b _ => .lvl p b .err
  | .exp p _ => .exp p .err
  | .dir p _ => .dir p .err
  | .rel p _ => .rel p .err
  | .relH => .relH
  | .wait ms => .wait ms
  | .resp s => .resp s

/-- How many of the events are calls with an answer. -/
def callCount (es : List Event) : Nat := es.countP Event.isCall

/-- The events up to call number `k` (from 0), that call answered `err`; nothing after it (R104, R226 (a)). -/
def cutAtCall : Nat → List Event → List Event
  | _, [] => []
  | k, e :: es =>
    if e.isCall then
      match k with
      | 0 => [e.failed]
      | k + 1 => e :: cutAtCall k es
    else e :: cutAtCall k es

/-- The total delay of the events, in milliseconds (R195, R265). -/
def waitMs : List Event → Nat
  | [] => 0
  | .wait ms :: es => ms + waitMs es
  | _ :: es => waitMs es

/-! ## Instructions -/

/-- The life value in which a host request is allowed (R224). -/
def neededLife : Instr → Life
  | .init => .unconfigured
  | _ => .ready

/-- The request meets the contract checks (R73 checks 8 and 9). -/
def contractMet (c : Config) : Instr → Prop
  | .writeFrame _ bytes => bytes.length ≤ 27
  | .render _ text => text.length ≤ c.maxText
  | _ => True

/-- The unit of a wire command. -/
def commandUnit : Instr → Option UnitId
  | .cmdDisplayMode u => some u
  | .cmdDataMode u => some u
  | .cmdAddrWrite u _ => some u
  | .cmdPowerOn u _ => some u
  | .cmdPowerOff u => some u
  | _ => none

/-- The host requests that send one wire frame to each unit (R142 to R144, R146). -/
def sendsOnePair : Instr → Bool
  | .setDisplayMode => true
  | .setDataMode => true
  | .setPowerOff _ => true
  | .setPowerOn _ => true
  | .writeFrame _ _ => true
  | _ => false

/-- The bits of a byte that reach the wire (R43). -/
def wireBits (v : Byte) : BitVec 5 := v.extractLsb' 0 5

/-! ## The line driver's answers -/

/-- The next `n` calls are answered `ok`. -/
def State.allOk (s : State) (n : Nat) : Prop := ∀ k < n, s.answerAt k = .ok

/-- Call number `k` from here is answered `err`, and every call before it `ok`. -/
def State.firstErrAt (s : State) (k : Nat) : Prop := s.allOk k ∧ s.answerAt k = .err

/-! ## What operations leave behind -/

/-- `s` after the events `es` happened, `callCount es` of them drawing an answer; every other field is as before. -/
def State.afterEvents (s : State) (es : List Event) : State :=
  { s with
    events := es.reverse ++ s.events
    lvl := es.foldl Levels.after s.lvl
    answers := s.answers.drop (callCount es)
    draws := s.draws + callCount es }

/-- `s` after its request's response (R28): the status is in `resp` and in the trace, the block is free, the working
registers hold no value (R29, R30), and the position has moved on by one (R22). -/
def State.responded (s : State) (st : Status) : State :=
  { s with
    events := .resp st :: s.events
    resp := some st
    busy := false
    pos := s.pos + 1
    fb := none
    st := none
    buf := none
    L := none
    i := none
    start := none }

/-- In every state that meets `pre`, `i` sends the events `es` in order: with status `OK` and all of them where every
call is answered `ok`; with `ERR_LINE_WRITE` and only those up to the first call answered `err` otherwise. Nothing else of
the state changes but the response (R28, R104, R225, R226). -/
def SendsInOrder (i : Instr) (pre : State → Prop) (es : State → List Event) : Prop :=
  ∀ s, pre s →
    (s.allOk (callCount (es s)) → exec i s = .next ((s.afterEvents (es s)).responded .ok)) ∧
    ∀ k < callCount (es s), s.firstErrAt k →
      exec i s = .next ((s.afterEvents (cutAtCall k (es s))).responded .errLineWrite)

/-- In every state, the wire command `i` sends the events `es` in order, up to the first call answered `err`, and
returns that as its result. Nothing else of the state changes (R104, R106, R120). -/
def UnitSends (i : Instr) (es : State → List Event) : Prop :=
  ∀ s,
    (s.allOk (callCount (es s)) → exec i s = .next { s.afterEvents (es s) with unitResult := some .ok }) ∧
    ∀ k < callCount (es s), s.firstErrAt k →
      exec i s = .next { s.afterEvents (cutAtCall k (es s)) with unitResult := some .err }

/-- The events of the six release calls, whose first one draws answer number `n` from here (R148). -/
def State.releasesAt (s : State) (n : Nat) : List Event :=
  releaseOrder.mapIdx fun j p => .rel p (s.answerAt (n + j))

/-- SHUTDOWN from `s` makes the line writes `w`, of which one failed: then `RelH` and the six releases follow, whatever
they are answered, `life` is RELEASED and the status is `ERR_LINE_WRITE` (R147, R148, R225). -/
def State.ShutsDownAfter (s : State) (w : List Event) : Prop :=
  exec .shutdown s =
    .next (({ s with life := .released }.afterEvents (w ++ Event.relH :: s.releasesAt (callCount w))).responded .errLineWrite)

/-! ## Views of the trace and invariants -/

/-- The level shadow that a trace gives, from all unknown (R25). -/
def levelsOf (es : List Event) : Levels := es.foldl Levels.after Levels.unknown

/-- The status of the last response in a trace (R28). -/
def lastResponse : List Event → Option Status
  | [] => none
  | e :: es =>
    match lastResponse es, e with
    | some st, _ => some st
    | none, .resp st => some st
    | none, _ => none

/-- An event that is a response. -/
def Event.isResponse : Event → Bool
  | .resp _ => true
  | _ => false

/-- THE INVARIANT of the machine: the configuration is legal (R8, R171, R172); `lvl` is a view of the trace (R25);
`resp` is the last response of the trace and `pos` the number of responses (R22, R28); between steps the working registers
hold no value (R29, R30); and a busy block has a request in hand (R26). -/
structure State.Inv (s : State) : Prop where
  cfg_legal : s.cfg.wf
  lvl_view : s.lvl = levelsOf s.trace
  resp_view : s.resp = lastResponse s.trace
  pos_view : s.pos = s.trace.countP Event.isResponse
  no_frame : s.fb = none ∧ s.st = none
  no_scroll : s.buf = none ∧ s.L = none ∧ s.i = none ∧ s.start = none
  busy_request : s.busy = true → s.pos < s.program.length

/-- The line-driver calls of a trace. -/
def lineCalls (es : List Event) : List Event := es.filter Event.isCall

/-- What the line calls made so far can be, by the life value (R24, R141, R147, R148, R253): before INIT none; in READY
the 12 of INIT, all answered `ok`, and then line writes only; after a failed INIT pin configurations only; after SHUTDOWN
the 12 of INIT, then line writes, then the six releases in order. -/
def callsOfLife (l : Life) (calls : List Event) : Prop :=
  match l with
  | .unconfigured => calls = []
  | .ready => ∃ w, calls = initEvents ++ w ∧ ∀ e ∈ w, e.isWrite = true
  | .initFailed => ∀ e ∈ calls, e.isConfig = true
  | .released =>
    ∃ w z, calls = initEvents ++ w ++ z ∧ (∀ e ∈ w, e.isWrite = true) ∧ z.map Event.releasedPin = releaseOrder.map some

/-- THE LIFECYCLE ORDER of a block driven by its host alone, with no unit operation called for from elsewhere. -/
def State.LifeOrder (s : State) : Prop := s.unitCall = none ∧ callsOfLife s.life (lineCalls s.trace)

/-! ## Hazards (R258, R260) -/

/-- The strobe of a unit may be low outside a frame: it was left low, or its level is unknown (R258, R261). The unit may
then take the clock and data pulses of a later frame as its own (R258, R260). -/
def State.strobeMayBeLow (s : State) (u : UnitId) : Bool := s.lvl.get (strobe u) != .high

/-- A frame sent now to `u` may be seen by the other unit as well (R258, R260). -/
def State.otherMaySee (s : State) (u : UnitId) : Bool :=
  match u with
  | .left => s.strobeMayBeLow .right
  | .right => s.strobeMayBeLow .left

/-! ## What the line driver sees -/

/-- A call as the line driver receives it, with the pin's number (R4 (a), R11, R31). -/
inductive DriverCall where
  | setLevel (pin : Nat) (b : Bool)
  | exportPin (pin : Nat)
  | setDirOut (pin : Nat)
  | release (pin : Nat)
  | releaseHandles
  | delay (ms : Nat)
deriving DecidableEq, Repr

/-- The call behind an event, with the pin number of the configuration (log 9). A response is no call. -/
def Event.driverCall (c : Config) : Event → Option DriverCall
  | .lvl p b _ => some (.setLevel (c.pinNumber p) b)
  | .exp p _ => some (.exportPin (c.pinNumber p))
  | .dir p _ => some (.setDirOut (c.pinNumber p))
  | .rel p _ => some (.release (c.pinNumber p))
  | .relH => some .releaseHandles
  | .wait ms => some (.delay ms)
  | .resp _ => none

/-- Every call the line driver has received, in order. -/
def State.driverCalls (s : State) : List DriverCall := s.trace.filterMap (Event.driverCall s.cfg)

end Sys2Proof.Machine
end

