-- ==== Sys2Proof/Certificates/Slice0/Obligations.lean ====
section
/-! DEFINITION. The statements for the provers. Each is listed in OBLIGATIONS.json. The terms are Safety.lean's, which
are written from the spec's formulas; where a statement rests on a choice of the model, its docstring names the log
entry. -/

open Sys2Proof Sys2Proof.Machine

/-! ## Reset, steps and invariants -/

/-- R35: the values that reset leaves, and `start` at the start of a RENDER. -/
def Obligations.ResetLeavesTheSpecifiedValues : Prop :=
  State.reset.life = .unconfigured ∧ (∀ p, State.reset.lvl.get p = .unknown) ∧ State.reset.busy = false ∧
  State.reset.trace = [] ∧ State.reset.resp = none ∧ State.reset.fb = none ∧ State.reset.st = none ∧
  State.reset.buf = none ∧ State.reset.L = none ∧ State.reset.i = none ∧
  ∀ text s, (State.loadText text s).start = some 0

/-- The invariant holds at reset, whichever legal configuration the instance has (log 2). -/
def Obligations.ResetMeetsTheInvariant : Prop := State.reset.Inv

/-- The invariant holds after every step from a state in which it holds (R22, R25, R26, R28 to R30, R32). -/
def Obligations.EveryStepKeepsTheInvariant : Prop :=
  ∀ s t, s.Inv → step s = .next t → t.Inv

/-- Reset meets the lifecycle order. -/
def Obligations.ResetMeetsTheLifecycleOrder : Prop := State.reset.LifeOrder

/-- A block driven by its host alone configures every pin before any line write, and releases last (R141, R147, R253). -/
def Obligations.EveryStepKeepsTheLifecycleOrder : Prop :=
  ∀ s t, s.LifeOrder → step s = .next t → t.LifeOrder

/-- A busy block whose request in hand decodes performs that request (R22, R26; two steps a request is log 5). -/
def Obligations.StepPerformsTheRequestInHand : Prop :=
  ∀ s bytes i, s.unitCall = none → s.busy = true → s.program[s.pos]? = some bytes →
    decodeRequest bytes = .instr i → step s = exec i s

/-- A called-for unit operation whose bytes decode is performed next, the call taken (the unit port is log 7). -/
def Obligations.StepPerformsTheCalledUnitOperation : Prop :=
  ∀ s u bytes i, s.unitCall = some (u, bytes) → decodeWire s.cfg u bytes = .instr i →
    step s = exec i { s with unitCall := none }

/-- A free block accepts the next request by setting `busy`, and without one it waits (R26, R251, log 5). -/
def Obligations.FreeBlockAcceptsOrWaits : Prop :=
  ∀ s, s.unitCall = none → s.busy = false →
    (∀ bytes, s.program[s.pos]? = some bytes → step s = .next { s with busy := true }) ∧
    (s.program[s.pos]? = none → step s = .next s)

/-- R73: a request that fails one of the checks 1 to 7 is answered `ERR_ILLEGAL`, with no line-driver call. -/
def Obligations.IllegalRequestsOnlyGetAnAnswer : Prop :=
  ∀ s bytes why, s.unitCall = none → s.busy = true → s.program[s.pos]? = some bytes →
    decodeRequest bytes = .illegal why → step s = .next (s.responded .errIllegal)

/-- R22, R26, R28: a busy block's step ends its request, moves the position on by one and takes no other request; a free
block's step leaves the position. -/
def Obligations.PositionMovesOncePerResponse : Prop :=
  ∀ s t, s.unitCall = none → step s = .next t →
    t.program = s.program ∧
    (s.busy = true → t.pos = s.pos + 1 ∧ t.busy = false ∧
      ∃ st w, t.resp = some st ∧ t.trace = s.trace ++ w ++ [.resp st] ∧ ∀ e ∈ w, e.isResponse = false) ∧
    (s.busy = false → t.pos = s.pos ∧ t.trace = s.trace ∧ t.resp = s.resp)

/-- R27, R49: no step removes or reorders an event. -/
def Obligations.TraceOnlyGrows : Prop :=
  ∀ s t, step s = .next t → ∃ w, t.trace = s.trace ++ w

/-! ## Request checks -/

/-- R70, R71, R73 checks 1 to 7, read from the bytes by their bit positions: exactly the requests that pass them all
decode. -/
def Obligations.ExactlyTheLegalRequestsDecode : Prop :=
  (∀ bytes : List Byte, bytes.length < 4 → ∀ i, decodeRequest bytes ≠ .instr i) ∧
  ∀ (b0 b1 b2 b3 : Byte) (p : List Byte) (op n : Nat),
    op = (b0.extractLsb' 0 4).toNat → n = b2.toNat + 256 * b3.toNat →
    ((∃ i, decodeRequest (b0 :: b1 :: b2 :: b3 :: p) = .instr i) ↔
      (p.length = if op = 5 then n else if op = 6 then 4 * n else 0) ∧
      (1 ≤ op ∧ op ≤ 7) ∧
      b0.extractLsb' 5 3 = 0 ∧
      (b0.getLsbD 4 = true → op = 4) ∧
      (b1 ≠ 0 → op = 4 ∨ op = 5 ∨ op = 6) ∧
      (n ≠ 0 → op = 5 ∨ op = 6) ∧
      (op = 6 → ∀ k < n, isScalar ((p.getD (4 * k) 0).toNat + 2 ^ 8 * (p.getD (4 * k + 1) 0).toNat +
        2 ^ 16 * (p.getD (4 * k + 2) 0).toNat + 2 ^ 24 * (p.getD (4 * k + 3) 0).toNat)))

/-- R73 checks 8 and 9, in every life value: they come before the lifecycle check, and no call is made. -/
def Obligations.ContractErrorsComeBeforeTheLifecycle : Prop :=
  (∀ st bytes s, 27 < bytes.length → exec (.writeFrame st bytes) s = .next (s.responded .errContract)) ∧
  ∀ st text s, s.cfg.maxText < text.length → exec (.render st text) s = .next (s.responded .errContract)

/-- R224: a request that meets its contract gets `ERR_STATE` and no event in every life value but its own, and in its
own it never gets `ERR_STATE`. -/
def Obligations.WrongLifecycleGetsErrState : Prop :=
  ∀ i s, i.isHostRequest = true → contractMet s.cfg i →
    (s.life ≠ neededLife i → exec i s = .next (s.responded .errState)) ∧
    (s.life = neededLife i → ∃ t, exec i s = .next t ∧ t.resp ≠ some .errState)

/-- R250: INIT_FAILED and RELEASED are final: whatever is asked, the block answers and does nothing else. -/
def Obligations.FinalLifeValuesOnlyAnswer : Prop :=
  ∀ i s, i.isHostRequest = true → s.life = .initFailed ∨ s.life = .released →
    (contractMet s.cfg i → exec i s = .next (s.responded .errState)) ∧
    (¬ contractMet s.cfg i → exec i s = .next (s.responded .errContract))

/-! ## Wire commands -/

/-- R120, R121, R122: each command-only wire command is one frame on its unit's strobe with its command byte (R65, R66
give the power bytes), 26 events when every answer is `ok`; its result is the frame's. -/
def Obligations.UnitCommandsSendOneFrame : Prop :=
  ∀ u,
    UnitSends (.cmdDisplayMode u) (fun s => frameEvents (strobe u) s.cfg.displayModeCmd []) ∧
    UnitSends (.cmdDataMode u) (fun s => frameEvents (strobe u) s.cfg.dataModeCmd []) ∧
    (∀ b, UnitSends (.cmdPowerOn u b) (fun _ => frameEvents (strobe u) (0b10001#5 ++ b) [])) ∧
    UnitSends (.cmdPowerOff u) (fun _ => frameEvents (strobe u) 0x80 []) ∧
    ∀ cmd, (frameEvents (strobe u) cmd []).length = 26

/-- R125, R103: the address-write command sends 0xC0 and its data bytes, at most 14 of them, in `E(n)` events. -/
def Obligations.AddressWriteSendsItsDataBytes : Prop :=
  ∀ u d,
    UnitSends (.cmdAddrWrite u d) (fun _ => frameEvents (strobe u) 0xC0 d) ∧
    (frameEvents (strobe u) 0xC0 d).length = 2 + 3 * (8 + 5 * min d.length 14 + 6 * (min d.length 14 / 2)) ∧
    frameEvents (strobe u) 0xC0 d = frameEvents (strobe u) 0xC0 (d.take 14)

/-- What a wire command leaves unchanged, whatever the line driver answers: everything but the trace, the levels and the
answers drawn, and its result. It writes only the clock, the data line and its own unit's strobe (R102, R120). -/
def Obligations.UnitCommandFrame : Prop :=
  ∀ i u s t, commandUnit i = some u → exec i s = .next t →
    ∃ w r, t = { s.afterEvents w with unitResult := some r } ∧
      (∀ e ∈ w, ∃ p b a, e = .lvl p b a ∧ (p = .clk ∨ p = .dio ∨ p = strobe u)) ∧
      ∀ v, v ≠ u → t.lvl.get (strobe v) = s.lvl.get (strobe v)

/-! ## INIT -/

/-- R141: INIT in UNCONFIGURED makes the 12 pin calls in order; READY if all succeeded, else INIT_FAILED and
`ERR_PIN_CONFIG` at the first failure. -/
def Obligations.InitConfiguresEveryPin : Prop :=
  ∀ s, s.life = .unconfigured →
    (s.allOk 12 → exec .init s = .next (({ s with life := .ready }.afterEvents initEvents).responded .ok)) ∧
    ∀ k < 12, s.firstErrAt k →
      exec .init s =
        .next (({ s with life := .initFailed }.afterEvents (cutAtCall k initEvents)).responded .errPinConfig)

/-- R261: INIT writes no line, whatever the line driver answers, and after a successful INIT no level is known. -/
def Obligations.InitLeavesEveryLevelUnknown : Prop :=
  ∀ s t, exec .init s = .next t →
    (∃ w, t.trace = s.trace ++ w ∧ ∀ e ∈ w, e.isWrite = false) ∧
    (s.life = .unconfigured → t.life = .ready → ∀ p, t.lvl.get p = .unknown)

/-! ## Mode, power and frame requests -/

/-- R142, R143, R144: the mode and power requests send the same command-only frame to the left unit and then to the
right, 52 events, fail-fast. The power byte is 0x88 with the brightness's low 3 bits, or 0x80 for every brightness. -/
def Obligations.ModeAndPowerRequestsReachBothUnits : Prop :=
  SendsInOrder .setDisplayMode (fun s => s.life = .ready) (fun s => bothCommand s.cfg.displayModeCmd) ∧
  SendsInOrder .setDataMode (fun s => s.life = .ready) (fun s => bothCommand s.cfg.dataModeCmd) ∧
  (∀ b, SendsInOrder (.setPowerOn b) (fun s => s.life = .ready) (fun _ => bothCommand (0x88 ||| (b &&& 0x07)))) ∧
  (∀ b, SendsInOrder (.setPowerOff b) (fun s => s.life = .ready) (fun _ => bothCommand 0x80)) ∧
  ∀ cmd, (bothCommand cmd).length = 52

/-- R123: the power byte keeps three bits of the brightness, sets bits 7 and 3, clears bits 6 to 4; off is 0x80. -/
def Obligations.PowerByteKeepsThreeBits : Prop :=
  (∀ b : Byte, powerByte true b = 0x88 ||| (b &&& 0x07)) ∧
  (∀ b : Byte, powerByte false b = 0x80) ∧
  (∀ (on : Bool) (b : Byte), (powerByte on b).extractLsb' 4 3 = 0 ∧ (powerByte on b).getLsbD 7 = true) ∧
  (∀ b : Byte, (powerByte true b).getLsbD 3 = true ∧ (powerByte true b).extractLsb' 0 3 = b.extractLsb' 0 3) ∧
  powerByte true 7 = 0x8F ∧ powerByte false 7 = 0x80 ∧ powerByte true 9 = 0x89 ∧ powerByte true 9 = powerByte true 1 ∧
  powerByte true 8 = 0x88 ∧ powerByte true 255 = 0x8F

/-- R42, R145, R146: WRITE_FRAME of at most 27 bytes sends one screen frame, zero-padded at the tail, in 724 events. -/
def Obligations.WriteFrameSendsOneScreenFrame : Prop :=
  ∀ st bytes, bytes.length ≤ 27 →
    SendsInOrder (.writeFrame st bytes) (fun s => s.life = .ready) (fun _ => screenEvents (plainColumn bytes) st) ∧
    (screenEvents (plainColumn bytes) st).length = 724

/-- R29, R145: whatever the line driver answers, WriteFrame leaves its padded columns in `fb` and its status byte in
`st`. -/
def Obligations.WriteFrameSetsTheFrameRegisters : Prop :=
  ∀ st bytes s t r, bytes.length ≤ 27 → State.writeFrame bytes st s = (t, r) →
    t.fb = some ((List.range 27).map (plainColumn bytes)) ∧ t.st = some st

/-- R43: bytes that differ only in bits 7:5 have the same outcome, columns and status byte alike, in WRITE_FRAME as in
RENDER (the bytes of RENDER's table are R176's statement). -/
def Obligations.TopBitsNeverReachTheWire : Prop :=
  ∀ (st st' : Byte) (s : State), wireBits st = wireBits st' →
    (∀ bytes bytes' : List Byte, bytes.map wireBits = bytes'.map wireBits →
      exec (.writeFrame st bytes) s = exec (.writeFrame st' bytes') s) ∧
    ∀ text, exec (.render st text) s = exec (.render st' text) s

/-! ## RENDER -/

/-- R193, with the procedure of R192: a text of encoded length at most 27 is one centred screen frame of 724 events and no delay, with
`floor((27 - L) / 2)` zero columns on the left and `ceil((27 - L) / 2)` on the right. -/
def Obligations.ShortTextsRenderCentred : Prop :=
  (∀ st text,
    SendsInOrder (.render st text)
      (fun s => s.life = .ready ∧ text.length ≤ s.cfg.maxText ∧ (expand s.cfg text).length ≤ 27)
      (fun s => screenEvents (centredColumn (expand s.cfg text)) st)) ∧
  ∀ buf : List Byte, buf.length ≤ 27 →
    (List.range 27).map (centredColumn buf) =
      zeros ((27 - buf.length) / 2) ++ buf ++ zeros ((27 - buf.length + 1) / 2) ∧
    ∀ st, (screenEvents (centredColumn buf) st).length = 724

/-- R196, R197, R199, R201, with the procedure of R194 and R195: a longer text scrolls: frame `i` is the window `buf[max(0, i - 27):i]`, padded to 27
columns, each followed by one wait of 128 ms, from `i` = 1 to `L`, all with the same status byte; after a failed write
there is no wait and no further frame. -/
def Obligations.LongTextsScroll : Prop :=
  (∀ st text,
    SendsInOrder (.render st text)
      (fun s => s.life = .ready ∧ text.length ≤ s.cfg.maxText ∧ 27 < (expand s.cfg text).length)
      (fun s => scrollEvents (expand s.cfg text) st)) ∧
  ∀ (buf : List Byte) (i : Nat), i ≤ buf.length →
    (slice buf (i - 27) i).length = min i 27 ∧
    (List.range 27).map (scrollColumn buf i) = pad27 (slice buf (i - 27) i)

/-- R194, R195, R200: a RENDER of `L` > 27 bytes whose calls all succeed appends `724 * L` line events and `L` waits of
128 ms, `128 * L` ms in all, and then its response. -/
def Obligations.ScrollLengthAndDelay : Prop :=
  ∀ (st : Byte) (text : List Nat) (s : State), s.life = .ready → text.length ≤ s.cfg.maxText → 27 < (expand s.cfg text).length →
    s.allOk (724 * (expand s.cfg text).length) →
    ∃ (t : State) (w : List Event), exec (.render st text) s = .next t ∧ t.trace = s.trace ++ w ++ [.resp .ok] ∧
      callCount w = 724 * (expand s.cfg text).length ∧
      w.count (.wait 128) = (expand s.cfg text).length ∧
      w.length = 725 * (expand s.cfg text).length ∧
      waitMs w = 128 * (expand s.cfg text).length

/-- R30, R194: a scroll step leaves its index in `i` and `max(0, i - 27)` in `start`, and keeps the text. -/
def Obligations.ScrollStepSetsItsRegisters : Prop :=
  ∀ st i s t r, State.scrollStep st i s = (t, r) →
    t.i = some i ∧ t.start = some (i - 27) ∧ t.buf = s.buf ∧ t.L = s.L

/-- R222: a text of unknown characters only renders as the blank frame with its status byte, and succeeds. -/
def Obligations.UnknownCharactersRenderBlank : Prop :=
  ∀ st text s, s.life = .ready → text.length ≤ s.cfg.maxText →
    (∀ c ∈ text, charLut s.cfg (upper s.cfg c) = none) → s.allOk 724 →
    exec (.render st text) s = .next ((s.afterEvents (screenEvents (fun _ => 0) st)).responded .ok)

/-- R176: two tables whose entries differ only in bits 7:5 render every text the same. -/
def Obligations.TableTopBitsNeverReachTheWire : Prop :=
  ∀ st text s lut',
    List.Forall₂ (fun e e' : Nat × List Byte => e.1 = e'.1 ∧ e.2.map wireBits = e'.2.map wireBits) s.cfg.charLut lut' →
    ∃ t t', exec (.render st text) s = .next t ∧
      exec (.render st text) { s with cfg := { s.cfg with charLut := lut' } } = .next t' ∧
      t'.trace = t.trace ∧ t'.resp = t.resp ∧ t'.lvl = t.lvl

/-! ## The character table -/

/-- R171, R172, R173: a legal table shows every required character, with at most `MAX_GLYPH` bytes, and lowercase 'a' to
'z' as 'A' to 'Z'. -/
def Obligations.RequiredCharactersHaveGlyphs : Prop :=
  ∀ c : Config, c.wf →
    (∀ k ∈ requiredKeys, 1 ≤ (glyph c k).length) ∧
    (∀ k < 26, glyph c (0x61 + k) = glyph c (0x41 + k)) ∧
    ∀ k, (glyph c k).length ≤ c.maxGlyph

/-- R174, R175: expansion joins the glyphs in text order, a miss adds nothing, and its length is bounded. -/
def Obligations.ExpansionFollowsTheText : Prop :=
  ∀ c : Config,
    expand c [] = [] ∧
    (∀ text, expand c text = (text.map (glyph c)).flatten) ∧
    (∀ a b, expand c (a ++ b) = expand c a ++ expand c b) ∧
    (∀ k, charLut c (upper c k) = none → ∀ a b, expand c (a ++ k :: b) = expand c (a ++ b)) ∧
    (c.wf → ∀ text, (expand c text).length ≤ text.length * c.maxGlyph)

/-! ## SHUTDOWN -/

/-- R147, R148: a SHUTDOWN whose calls all succeed. -/
def Obligations.ShutdownOfAWorkingLine : Prop :=
  ∀ s, s.life = .ready → s.allOk 782 →
    exec .shutdown s = .next (({ s with life := .released }.afterEvents shutdownEvents).responded .ok)

/-- R147, R148, R225: whatever the line driver answers, SHUTDOWN ends RELEASED with every pin's level unknown; its line
writes come first, then `RelH`, then all six releases in order; its status is the first error's. -/
def Obligations.ShutdownAlwaysReleasesEveryPin : Prop :=
  ∀ s, s.life = .ready →
    ∃ (w z : List Event) (st : Status), exec .shutdown s = .next (({ s with life := .released }.afterEvents (w ++ Event.relH :: z)).responded st) ∧
      (∀ e ∈ w, e.isWrite = true) ∧ z.map Event.releasedPin = releaseOrder.map some ∧
      st = (if ∃ e ∈ w, e.answer? = some .err then .errLineWrite
        else if ∃ e ∈ z, e.answer? = some .err then .errRelease else .ok) ∧
      ∀ l p, ((w ++ Event.relH :: z).foldl Levels.after l).get p = .unknown

/-- R147, R149, with R104 and R226 (a): what SHUTDOWN writes when one of its line writes fails. A power-off that fails at
call `k` is cut there, and the blanking frame follows it only where the configuration says so; a blanking frame that fails,
after a good power-off or a failed one, is cut at its failed call too. The status is `ERR_LINE_WRITE`, and every pin is
still released. The cases cover every place of a first failed write. -/
def Obligations.ShutdownBlanksAsConfigured : Prop :=
  ∀ s : State, s.life = .ready →
    (∀ k < 724, s.firstErrAt (52 + k) →
      s.ShutsDownAfter (bothCommand 0x80 ++ cutAtCall k (screenEvents (fun _ => 0) 0))) ∧
    ∀ k < 52, s.firstErrAt k →
      (s.cfg.shutdownBlankAfterPowerErr = false → s.ShutsDownAfter (cutAtCall k (bothCommand 0x80))) ∧
      (s.cfg.shutdownBlankAfterPowerErr = true →
        ((∀ j < 724, s.answerAt (k + 1 + j) = .ok) →
          s.ShutsDownAfter (cutAtCall k (bothCommand 0x80) ++ screenEvents (fun _ => 0) 0)) ∧
        ∀ m < 724, (∀ j < m, s.answerAt (k + 1 + j) = .ok) → s.answerAt (k + 1 + m) = .err →
          s.ShutsDownAfter (cutAtCall k (bothCommand 0x80) ++ cutAtCall m (screenEvents (fun _ => 0) 0)))

/-! ## Rules over all requests -/

/-- What a host request leaves unchanged and what it leaves behind, whatever the line driver answers: the configuration,
the program and the unit port are unchanged; the response is written (R28); the working registers hold no value (R29,
R30); no other event is a response; the levels follow the events (R25); and a request other than INIT and SHUTDOWN keeps
the life value and makes only line writes and waits. -/
def Obligations.HostRequestFrame : Prop :=
  ∀ (i : Instr) (s t : State), i.isHostRequest = true → exec i s = .next t →
    t.cfg = s.cfg ∧ t.program = s.program ∧ t.unitCall = s.unitCall ∧ t.unitResult = s.unitResult ∧
    t.pos = s.pos + 1 ∧ t.busy = false ∧
    t.fb = none ∧ t.st = none ∧ t.buf = none ∧ t.L = none ∧ t.i = none ∧ t.start = none ∧
    ∃ w st, t.resp = some st ∧ t.trace = s.trace ++ w ++ [.resp st] ∧ (∀ e ∈ w, e.isResponse = false) ∧
      t.lvl = w.foldl Levels.after s.lvl ∧ t.answers = s.answers.drop (callCount w) ∧
      t.draws = s.draws + callCount w ∧
      (i ≠ .init → i ≠ .shutdown →
        t.life = s.life ∧ ∀ e ∈ w, e.isWrite = true ∨ e = .wait 128)

/-- R24: the lifecycle register's encoding and reset value, and every move it makes. -/
def Obligations.LifecycleMovesOnlyByInitAndShutdown : Prop :=
  (Life.unconfigured.code = 0 ∧ Life.ready.code = 1 ∧ Life.initFailed.code = 2 ∧ Life.released.code = 3) ∧
  State.reset.life = .unconfigured ∧
  ∀ i s t, exec i s = .next t →
    (i = .init → s.life = .unconfigured → (s.allOk 12 → t.life = .ready) ∧ (¬ s.allOk 12 → t.life = .initFailed)) ∧
    (i = .shutdown → s.life = .ready → t.life = .released) ∧
    (¬ (i = .init ∧ s.life = .unconfigured) → ¬ (i = .shutdown ∧ s.life = .ready) → t.life = s.life)

/-- R225, R226: outside SHUTDOWN an operation's first call answered `err` is its last event, and it decides the status;
without one the status is `OK` or a refusal, and a refusal makes no call. -/
def Obligations.FirstErrorEndsTheOperation : Prop :=
  ∀ (i : Instr) (s t : State) (w : List Event) (st : Status), i.isHostRequest = true → i ≠ .shutdown → exec i s = .next t →
    t.trace = s.trace ++ w ++ [.resp st] →
    ((∀ e ∈ w, e.answer? ≠ some .err) ∧ (st = .ok ∨ w = [] ∧ (st = .errState ∨ st = .errContract))) ∨
    ∃ (p : List Event) (e : Event), w = p ++ [e] ∧ e.answer? = some .err ∧ (∀ e' ∈ p, e'.answer? ≠ some .err) ∧
      st = if i = .init then Status.errPinConfig else Status.errLineWrite

/-- R50: in every request, a whole frame of the left unit comes before any line write of the right unit's strobe; and a
request of one pair of frames writes the left unit's strobe no more after that frame. -/
def Obligations.LeftFrameComesFirst : Prop :=
  ∀ (i : Instr) (s t : State) (w : List Event) (st : Status), i.isHostRequest = true → exec i s = .next t →
    t.trace = s.trace ++ w ++ [.resp st] →
    (∀ p b r q, w = p ++ .lvl .stbR b r :: q → ∃ p₁ cmd d p₂, p = p₁ ++ frameEvents .stbL cmd d ++ p₂) ∧
    (sendsOnePair i = true → (∃ b r, Event.lvl .stbR b r ∈ w) →
      ∃ cmd d q, w = frameEvents .stbL cmd d ++ q ∧ ∀ b r, Event.lvl .stbL b r ∉ q)

/-- R262: wherever the clock is driven high, the data line was written just before, after the clock was driven low. -/
def Obligations.DataIsWrittenBeforeTheClockRises : Prop :=
  ∀ (i : Instr) (s t : State) (w : List Event), exec i s = .next t → t.trace = s.trace ++ w →
    ∀ p q r, w = p ++ .lvl .clk true r :: q →
      ∃ p' b, p = p' ++ [.lvl .clk false .ok, .lvl .dio b .ok]

/-- R20, R25, R109, R122, R198, R227: an operation reads only the configuration, the life value and the answers. Two
states that agree on these get the same new events, life value and result, whatever their traces, levels, registers and
earlier responses. -/
def Obligations.NothingElsePersistsBetweenRequests : Prop :=
  ∀ i s s', s'.cfg = s.cfg → s'.life = s.life → s'.answers = s.answers → s'.draws = s.draws →
    ∃ t t' w, exec i s = .next t ∧ exec i s' = .next t' ∧
      t.trace = s.trace ++ w ∧ t'.trace = s'.trace ++ w ∧ t'.life = t.life ∧ t'.answers = t.answers ∧
      t'.draws = t.draws ∧
      (i.isHostRequest = true → t'.resp = t.resp) ∧ (i.isHostRequest = false → t'.unitResult = t.unitResult)

/-- R260, with R108: SET_DISPLAY_MODE, SET_DATA_MODE, SET_POWER, WRITE_FRAME and RENDER that answer `OK` leave both strobes
high, so neither unit may take later pulses (what a chip does with a low strobe is log 17). SHUTDOWN is not among them: it
leaves every level unknown (R147). -/
def Obligations.CompletedRequestsLeaveBothStrobesHigh : Prop :=
  ∀ i s t, sendsOnePair i = true ∨ (∃ st text, i = .render st text) → exec i s = .next t → t.resp = some .ok →
    ∀ u, t.strobeMayBeLow u = false

/-! ## The protocol encoder -/

/-- R68: the numbers of bit slots and line events of a frame, of the machine's calls as of the layout. -/
def Obligations.FrameLengths : Prop :=
  (∀ stb cmd d, (frame stb cmd d).length = 2 + 3 * (8 + 5 * min d.length 14 + 6 * (min d.length 14 / 2))) ∧
  (∀ stb cmd d, (frameBits cmd d).length = 8 + 5 * min d.length 14 + 6 * (min d.length 14 / 2) ∧
    (frameEvents stb cmd d).length = (frame stb cmd d).length) ∧
  [0, 1, 2, 13, 14].map slotCount = [8, 13, 24, 109, 120] ∧
  [0, 1, 2, 13, 14].map eventCount = [26, 41, 74, 329, 362] ∧
  2 * slotCount 14 = 240 ∧ ∀ col st, (screenEvents col st).length = 724

/-- R40, R44, R60, R67, R105: a frame is its strobe edges around its slots and nothing else; slot `k` of a frame is the calls `1 + 3k` to `3 + 3k`, clock low, data, clock high; the
command's bits come first; data byte `i` starts at slot `8 + 16*(i/2) + 5*(i mod 2)`, low bit first; six zero slots follow
an odd one. -/
def Obligations.SlotPositions : Prop :=
  ∀ (stb : Pin) (cmd : Byte) (d : List Byte),
    let call : Nat → Option Call := fun k => (frame stb cmd d)[k]?
    let slot : Nat → Bool → Prop := fun k b => call (1 + 3 * k) = some (.setLevel .clk false) ∧
      call (1 + 3 * k + 1) = some (.setLevel .dio b) ∧ call (1 + 3 * k + 2) = some (.setLevel .clk true)
    (frame stb cmd d).length = 2 + 3 * slotCount (min d.length 14) ∧
    call 0 = some (.setLevel stb false) ∧
    (frame stb cmd d).getLast? = some (.setLevel stb true) ∧
    (∀ k < 8, slot k (cmd.getLsbD k)) ∧
    (∀ i < min d.length 14, ∀ b < 5, slot (8 + 16 * (i / 2) + 5 * (i % 2) + b) ((d.getD i 0).getLsbD b)) ∧
    ∀ i < min d.length 14, i % 2 = 1 → ∀ z < 6, slot (8 + 16 * (i / 2) + 10 + z) false

/-- R43, R60, R67: a frame's calls tell its command byte, its number of data bytes and the low 5 bits of each apart, and
nothing more. -/
def Obligations.FramesTellTheirContentsApart : Prop :=
  ∀ stb cmd cmd' d d',
    frame stb cmd d = frame stb cmd' d' ↔ cmd = cmd' ∧ (d.take 14).map wireBits = (d'.take 14).map wireBits

/-- R108: the levels after a completed frame: clock and strobe high, the data line at the last slot's bit, the other
strobe as before. -/
def Obligations.CompletedFrameLevels : Prop :=
  ∀ u cmd d s t, State.sendFrame u cmd d s = (t, .ok) →
    t.lvl.get .clk = .high ∧ t.lvl.get (strobe u) = .high ∧
    (∀ v, v ≠ u → t.lvl.get (strobe v) = s.lvl.get (strobe v)) ∧
    t.lvl.get .dio =
      (if d = [] then Level.ofBit (cmd.getLsbD 7)
        else if min d.length 14 % 2 = 0 then .low
        else Level.ofBit ((d.getD (min d.length 14 - 1) 0).getLsbD 4))

/-- R104: a failed frame ends with its failed call, whose pin is unknown, and its strobe is low or unknown. So the unit may
take later pulses as part of the unfinished frame: that is R258, the spec's own reading of what a chip does, and log 17. -/
def Obligations.FailedFrameLeavesItsStrobeInDoubt : Prop :=
  ∀ u cmd d s t, State.sendFrame u cmd d s = (t, .err) →
    ∃ k p b, (frameEvents (strobe u) cmd d)[k]? = some (.lvl p b .ok) ∧
      t.trace = s.trace ++ (frameEvents (strobe u) cmd d).take k ++ [.lvl p b .err] ∧
      t.lvl.get p = .unknown ∧
      (t.lvl.get (strobe u) = .low ∨ t.lvl.get (strobe u) = .unknown) ∧
      t.strobeMayBeLow u = true

/-! ## Encodings -/

/-- Decoding an encoded host request gives it back, with every operand (R70 to R72). -/
def Obligations.EncodedRequestsDecode : Prop :=
  ∀ (c : Config) (i : Instr), i.wf = true → i.isHostRequest = true → decodeRequest (encode c i) = .instr i

/-- What decodes as a host request is well formed, is exactly its encoding, and its header tells its length (R70 to R73,
R75). -/
def Obligations.DecodedRequestsEncodeBack : Prop :=
  ∀ (c : Config) (b0 b1 b2 b3 : Byte) (p : List Byte) (i : Instr),
    decodeRequest (b0 :: b1 :: b2 :: b3 :: p) = .instr i →
    i.wf = true ∧ i.isHostRequest = true ∧ encode c i = b0 :: b1 :: b2 :: b3 :: p ∧
    (readHeader b0 b1 b2 b3).requestLength = (b0 :: b1 :: b2 :: b3 :: p).length

/-- Decoding an encoded wire command gives it back, where the two open command values differ from the other commands and
from each other (R61 to R66, R69; the decoder is log 8). -/
def Obligations.EncodedWireCommandsDecode : Prop :=
  ∀ (c : Config) (i : Instr) (u : UnitId), commandUnit i = some u →
    (∀ v, v = c.displayModeCmd ∨ v = c.dataModeCmd → v ≠ 0xC0 ∧ v ≠ 0x80 ∧ v.extractLsb' 3 5 ≠ 0b10001#5) →
    c.displayModeCmd ≠ c.dataModeCmd →
    decodeWire c u (encode c i) = .instr i

/-- R77: the encoding examples, from the text of R76 to the bytes, and from the bytes to the instruction. -/
def Obligations.EncodingExamples : Prop :=
  ∀ c : Config,
    assembleLine c "init".toList = some [[0x01, 0x00, 0x00, 0x00]] ∧
    assembleLine c "set_power on, 7".toList = some [[0x14, 0x07, 0x00, 0x00]] ∧
    assembleLine c "set_power off, 5".toList = some [[0x04, 0x05, 0x00, 0x00]] ∧
    assembleLine c "write_frame 0x0F, [0x1F, 0x01]".toList = some [[0x05, 0x0F, 0x02, 0x00, 0x1F, 0x01]] ∧
    assembleLine c "render 0x01, \"Hi\"".toList =
      some [[0x06, 0x01, 0x02, 0x00, 0x48, 0x00, 0x00, 0x00, 0x69, 0x00, 0x00, 0x00]] ∧
    assembleLine c "shutdown".toList = some [[0x07, 0x00, 0x00, 0x00]] ∧
    decodeRequest [0x14, 0x07, 0x00, 0x00] = .instr (.setPowerOn 7) ∧
    decodeRequest [0x05, 0x0F, 0x02, 0x00, 0x1F, 0x01] = .instr (.writeFrame 0x0F [0x1F, 0x01]) ∧
    decodeRequest [0x06, 0x01, 0x02, 0x00, 0x48, 0x00, 0x00, 0x00, 0x69, 0x00, 0x00, 0x00] =
      .instr (.render 0x01 [0x48, 0x69])

/-- R64, R65, R66: the command bytes of fixed value decode to their commands. -/
def Obligations.FixedCommandBytesDecode : Prop :=
  ∀ (c : Config) (u : UnitId),
    decodeWire c u [0b11000000, 0x1F] = .instr (.cmdAddrWrite u [0x1F]) ∧
    decodeWire c u [0b10001101] = .instr (.cmdPowerOn u 5) ∧
    decodeWire c u [0b10000000] = .instr (.cmdPowerOff u) ∧
    decodeWire c u [0b10000000, 0x00] = .illegal .dataAfterCommand

/-- R74, R221: the response byte of each status. -/
def Obligations.StatusCodes : Prop :=
  [Status.ok, .errPinConfig, .errLineWrite, .errRelease, .errState, .errIllegal, .errContract].map Status.code =
    [0, 1, 2, 3, 4, 5, 6] ∧
  ∀ st : Status, st.code.toNat < 7

/-- R8, R31: in a legal configuration the pins have different numbers, so the line driver can tell every call's pin
(pins by role are log 9). -/
def Obligations.LineDriverTellsThePinsApart : Prop :=
  ∀ c : Config, c.wf →
    (∀ p q, c.pinNumber p = c.pinNumber q → p = q) ∧
    ∀ e e' : Event, (e.driverCall c).isSome = true → e.driverCall c = e'.driverCall c → e.failed = e'.failed
end

