-- ==== Sys2Proof/Laws/State.lean ====
section
/-! SUPPORT. The small lemmas of the state's updates: for each update, what each field is after it. Every one is true by
definition, so that no later proof unfolds a record update. -/

namespace Sys2Proof.Machine

/-! An event is recorded (R25, R27). -/
@[simp] theorem State.record_cfg (e : Event) (s : State) : (s.record e).cfg = s.cfg := rfl
@[simp] theorem State.record_life (e : Event) (s : State) : (s.record e).life = s.life := rfl
@[simp] theorem State.record_lvl (e : Event) (s : State) : (s.record e).lvl = s.lvl.after e := rfl
@[simp] theorem State.record_busy (e : Event) (s : State) : (s.record e).busy = s.busy := rfl
@[simp] theorem State.record_events (e : Event) (s : State) : (s.record e).events = e :: s.events := rfl
@[simp] theorem State.record_resp (e : Event) (s : State) : (s.record e).resp = s.resp := rfl
@[simp] theorem State.record_fb (e : Event) (s : State) : (s.record e).fb = s.fb := rfl
@[simp] theorem State.record_st (e : Event) (s : State) : (s.record e).st = s.st := rfl
@[simp] theorem State.record_buf (e : Event) (s : State) : (s.record e).buf = s.buf := rfl
@[simp] theorem State.record_L (e : Event) (s : State) : (s.record e).L = s.L := rfl
@[simp] theorem State.record_i (e : Event) (s : State) : (s.record e).i = s.i := rfl
@[simp] theorem State.record_start (e : Event) (s : State) : (s.record e).start = s.start := rfl
@[simp] theorem State.record_program (e : Event) (s : State) : (s.record e).program = s.program := rfl
@[simp] theorem State.record_pos (e : Event) (s : State) : (s.record e).pos = s.pos := rfl
@[simp] theorem State.record_unitCall (e : Event) (s : State) : (s.record e).unitCall = s.unitCall := rfl
@[simp] theorem State.record_unitResult (e : Event) (s : State) : (s.record e).unitResult = s.unitResult := rfl
@[simp] theorem State.record_answers (e : Event) (s : State) : (s.record e).answers = s.answers := rfl
@[simp] theorem State.record_draws (e : Event) (s : State) : (s.record e).draws = s.draws := rfl

/-! An answer is used up. -/
@[simp] theorem State.drawn_cfg (s : State) : (s.drawn).cfg = s.cfg := rfl
@[simp] theorem State.drawn_life (s : State) : (s.drawn).life = s.life := rfl
@[simp] theorem State.drawn_lvl (s : State) : (s.drawn).lvl = s.lvl := rfl
@[simp] theorem State.drawn_busy (s : State) : (s.drawn).busy = s.busy := rfl
@[simp] theorem State.drawn_events (s : State) : (s.drawn).events = s.events := rfl
@[simp] theorem State.drawn_resp (s : State) : (s.drawn).resp = s.resp := rfl
@[simp] theorem State.drawn_fb (s : State) : (s.drawn).fb = s.fb := rfl
@[simp] theorem State.drawn_st (s : State) : (s.drawn).st = s.st := rfl
@[simp] theorem State.drawn_buf (s : State) : (s.drawn).buf = s.buf := rfl
@[simp] theorem State.drawn_L (s : State) : (s.drawn).L = s.L := rfl
@[simp] theorem State.drawn_i (s : State) : (s.drawn).i = s.i := rfl
@[simp] theorem State.drawn_start (s : State) : (s.drawn).start = s.start := rfl
@[simp] theorem State.drawn_program (s : State) : (s.drawn).program = s.program := rfl
@[simp] theorem State.drawn_pos (s : State) : (s.drawn).pos = s.pos := rfl
@[simp] theorem State.drawn_unitCall (s : State) : (s.drawn).unitCall = s.unitCall := rfl
@[simp] theorem State.drawn_unitResult (s : State) : (s.drawn).unitResult = s.unitResult := rfl
@[simp] theorem State.drawn_answers (s : State) : (s.drawn).answers = s.answers.drop 1 := rfl
@[simp] theorem State.drawn_draws (s : State) : (s.drawn).draws = s.draws + 1 := rfl

/-! The working registers are abandoned (R29, R30). -/
@[simp] theorem State.dropWork_cfg (s : State) : (s.dropWork).cfg = s.cfg := rfl
@[simp] theorem State.dropWork_life (s : State) : (s.dropWork).life = s.life := rfl
@[simp] theorem State.dropWork_lvl (s : State) : (s.dropWork).lvl = s.lvl := rfl
@[simp] theorem State.dropWork_busy (s : State) : (s.dropWork).busy = s.busy := rfl
@[simp] theorem State.dropWork_events (s : State) : (s.dropWork).events = s.events := rfl
@[simp] theorem State.dropWork_resp (s : State) : (s.dropWork).resp = s.resp := rfl
@[simp] theorem State.dropWork_fb (s : State) : (s.dropWork).fb = none := rfl
@[simp] theorem State.dropWork_st (s : State) : (s.dropWork).st = none := rfl
@[simp] theorem State.dropWork_buf (s : State) : (s.dropWork).buf = none := rfl
@[simp] theorem State.dropWork_L (s : State) : (s.dropWork).L = none := rfl
@[simp] theorem State.dropWork_i (s : State) : (s.dropWork).i = none := rfl
@[simp] theorem State.dropWork_start (s : State) : (s.dropWork).start = none := rfl
@[simp] theorem State.dropWork_program (s : State) : (s.dropWork).program = s.program := rfl
@[simp] theorem State.dropWork_pos (s : State) : (s.dropWork).pos = s.pos := rfl
@[simp] theorem State.dropWork_unitCall (s : State) : (s.dropWork).unitCall = s.unitCall := rfl
@[simp] theorem State.dropWork_unitResult (s : State) : (s.dropWork).unitResult = s.unitResult := rfl
@[simp] theorem State.dropWork_answers (s : State) : (s.dropWork).answers = s.answers := rfl
@[simp] theorem State.dropWork_draws (s : State) : (s.dropWork).draws = s.draws := rfl

/-! A request ends (R28). -/
@[simp] theorem State.finish_cfg (c : Status) (s : State) : (s.finish c).cfg = s.cfg := rfl
@[simp] theorem State.finish_life (c : Status) (s : State) : (s.finish c).life = s.life := rfl
@[simp] theorem State.finish_lvl (c : Status) (s : State) : (s.finish c).lvl = s.lvl := rfl
@[simp] theorem State.finish_busy (c : Status) (s : State) : (s.finish c).busy = false := rfl
@[simp] theorem State.finish_events (c : Status) (s : State) : (s.finish c).events = .resp c :: s.events := rfl
@[simp] theorem State.finish_resp (c : Status) (s : State) : (s.finish c).resp = some c := rfl
@[simp] theorem State.finish_fb (c : Status) (s : State) : (s.finish c).fb = none := rfl
@[simp] theorem State.finish_st (c : Status) (s : State) : (s.finish c).st = none := rfl
@[simp] theorem State.finish_buf (c : Status) (s : State) : (s.finish c).buf = none := rfl
@[simp] theorem State.finish_L (c : Status) (s : State) : (s.finish c).L = none := rfl
@[simp] theorem State.finish_i (c : Status) (s : State) : (s.finish c).i = none := rfl
@[simp] theorem State.finish_start (c : Status) (s : State) : (s.finish c).start = none := rfl
@[simp] theorem State.finish_program (c : Status) (s : State) : (s.finish c).program = s.program := rfl
@[simp] theorem State.finish_pos (c : Status) (s : State) : (s.finish c).pos = s.pos + 1 := rfl
@[simp] theorem State.finish_unitCall (c : Status) (s : State) : (s.finish c).unitCall = s.unitCall := rfl
@[simp] theorem State.finish_unitResult (c : Status) (s : State) : (s.finish c).unitResult = s.unitResult := rfl
@[simp] theorem State.finish_answers (c : Status) (s : State) : (s.finish c).answers = s.answers := rfl
@[simp] theorem State.finish_draws (c : Status) (s : State) : (s.finish c).draws = s.draws := rfl

/-! The claims' own form of a request's end. -/
@[simp] theorem State.responded_cfg (c : Status) (s : State) : (s.responded c).cfg = s.cfg := rfl
@[simp] theorem State.responded_life (c : Status) (s : State) : (s.responded c).life = s.life := rfl
@[simp] theorem State.responded_lvl (c : Status) (s : State) : (s.responded c).lvl = s.lvl := rfl
@[simp] theorem State.responded_busy (c : Status) (s : State) : (s.responded c).busy = false := rfl
@[simp] theorem State.responded_events (c : Status) (s : State) : (s.responded c).events = .resp c :: s.events := rfl
@[simp] theorem State.responded_resp (c : Status) (s : State) : (s.responded c).resp = some c := rfl
@[simp] theorem State.responded_fb (c : Status) (s : State) : (s.responded c).fb = none := rfl
@[simp] theorem State.responded_st (c : Status) (s : State) : (s.responded c).st = none := rfl
@[simp] theorem State.responded_buf (c : Status) (s : State) : (s.responded c).buf = none := rfl
@[simp] theorem State.responded_L (c : Status) (s : State) : (s.responded c).L = none := rfl
@[simp] theorem State.responded_i (c : Status) (s : State) : (s.responded c).i = none := rfl
@[simp] theorem State.responded_start (c : Status) (s : State) : (s.responded c).start = none := rfl
@[simp] theorem State.responded_program (c : Status) (s : State) : (s.responded c).program = s.program := rfl
@[simp] theorem State.responded_pos (c : Status) (s : State) : (s.responded c).pos = s.pos + 1 := rfl
@[simp] theorem State.responded_unitCall (c : Status) (s : State) : (s.responded c).unitCall = s.unitCall := rfl
@[simp] theorem State.responded_unitResult (c : Status) (s : State) : (s.responded c).unitResult = s.unitResult := rfl
@[simp] theorem State.responded_answers (c : Status) (s : State) : (s.responded c).answers = s.answers := rfl
@[simp] theorem State.responded_draws (c : Status) (s : State) : (s.responded c).draws = s.draws := rfl

/-! A request is accepted (R26). -/
@[simp] theorem State.accept_cfg (s : State) : (s.accept).cfg = s.cfg := rfl
@[simp] theorem State.accept_life (s : State) : (s.accept).life = s.life := rfl
@[simp] theorem State.accept_lvl (s : State) : (s.accept).lvl = s.lvl := rfl
@[simp] theorem State.accept_busy (s : State) : (s.accept).busy = true := rfl
@[simp] theorem State.accept_events (s : State) : (s.accept).events = s.events := rfl
@[simp] theorem State.accept_resp (s : State) : (s.accept).resp = s.resp := rfl
@[simp] theorem State.accept_fb (s : State) : (s.accept).fb = s.fb := rfl
@[simp] theorem State.accept_st (s : State) : (s.accept).st = s.st := rfl
@[simp] theorem State.accept_buf (s : State) : (s.accept).buf = s.buf := rfl
@[simp] theorem State.accept_L (s : State) : (s.accept).L = s.L := rfl
@[simp] theorem State.accept_i (s : State) : (s.accept).i = s.i := rfl
@[simp] theorem State.accept_start (s : State) : (s.accept).start = s.start := rfl
@[simp] theorem State.accept_program (s : State) : (s.accept).program = s.program := rfl
@[simp] theorem State.accept_pos (s : State) : (s.accept).pos = s.pos := rfl
@[simp] theorem State.accept_unitCall (s : State) : (s.accept).unitCall = s.unitCall := rfl
@[simp] theorem State.accept_unitResult (s : State) : (s.accept).unitResult = s.unitResult := rfl
@[simp] theorem State.accept_answers (s : State) : (s.accept).answers = s.answers := rfl
@[simp] theorem State.accept_draws (s : State) : (s.accept).draws = s.draws := rfl

/-! WriteFrame loads its registers (R145). -/
@[simp] theorem State.loadFrame_cfg (bytes : List Byte) (c : Byte) (s : State) : (s.loadFrame bytes c).cfg = s.cfg := rfl
@[simp] theorem State.loadFrame_life (bytes : List Byte) (c : Byte) (s : State) : (s.loadFrame bytes c).life = s.life := rfl
@[simp] theorem State.loadFrame_lvl (bytes : List Byte) (c : Byte) (s : State) : (s.loadFrame bytes c).lvl = s.lvl := rfl
@[simp] theorem State.loadFrame_busy (bytes : List Byte) (c : Byte) (s : State) : (s.loadFrame bytes c).busy = s.busy := rfl
@[simp] theorem State.loadFrame_events (bytes : List Byte) (c : Byte) (s : State) : (s.loadFrame bytes c).events = s.events := rfl
@[simp] theorem State.loadFrame_resp (bytes : List Byte) (c : Byte) (s : State) : (s.loadFrame bytes c).resp = s.resp := rfl
@[simp] theorem State.loadFrame_fb (bytes : List Byte) (c : Byte) (s : State) : (s.loadFrame bytes c).fb = some (pad27 bytes) := rfl
@[simp] theorem State.loadFrame_st (bytes : List Byte) (c : Byte) (s : State) : (s.loadFrame bytes c).st = some c := rfl
@[simp] theorem State.loadFrame_buf (bytes : List Byte) (c : Byte) (s : State) : (s.loadFrame bytes c).buf = s.buf := rfl
@[simp] theorem State.loadFrame_L (bytes : List Byte) (c : Byte) (s : State) : (s.loadFrame bytes c).L = s.L := rfl
@[simp] theorem State.loadFrame_i (bytes : List Byte) (c : Byte) (s : State) : (s.loadFrame bytes c).i = s.i := rfl
@[simp] theorem State.loadFrame_start (bytes : List Byte) (c : Byte) (s : State) : (s.loadFrame bytes c).start = s.start := rfl
@[simp] theorem State.loadFrame_program (bytes : List Byte) (c : Byte) (s : State) : (s.loadFrame bytes c).program = s.program := rfl
@[simp] theorem State.loadFrame_pos (bytes : List Byte) (c : Byte) (s : State) : (s.loadFrame bytes c).pos = s.pos := rfl
@[simp] theorem State.loadFrame_unitCall (bytes : List Byte) (c : Byte) (s : State) : (s.loadFrame bytes c).unitCall = s.unitCall := rfl
@[simp] theorem State.loadFrame_unitResult (bytes : List Byte) (c : Byte) (s : State) : (s.loadFrame bytes c).unitResult = s.unitResult := rfl
@[simp] theorem State.loadFrame_answers (bytes : List Byte) (c : Byte) (s : State) : (s.loadFrame bytes c).answers = s.answers := rfl
@[simp] theorem State.loadFrame_draws (bytes : List Byte) (c : Byte) (s : State) : (s.loadFrame bytes c).draws = s.draws := rfl

/-! RENDER loads its registers (R190). -/
@[simp] theorem State.loadText_cfg (text : List Nat) (s : State) : (s.loadText text).cfg = s.cfg := rfl
@[simp] theorem State.loadText_life (text : List Nat) (s : State) : (s.loadText text).life = s.life := rfl
@[simp] theorem State.loadText_lvl (text : List Nat) (s : State) : (s.loadText text).lvl = s.lvl := rfl
@[simp] theorem State.loadText_busy (text : List Nat) (s : State) : (s.loadText text).busy = s.busy := rfl
@[simp] theorem State.loadText_events (text : List Nat) (s : State) : (s.loadText text).events = s.events := rfl
@[simp] theorem State.loadText_resp (text : List Nat) (s : State) : (s.loadText text).resp = s.resp := rfl
@[simp] theorem State.loadText_fb (text : List Nat) (s : State) : (s.loadText text).fb = s.fb := rfl
@[simp] theorem State.loadText_st (text : List Nat) (s : State) : (s.loadText text).st = s.st := rfl
@[simp] theorem State.loadText_buf (text : List Nat) (s : State) : (s.loadText text).buf = some (expand s.cfg text) := rfl
@[simp] theorem State.loadText_L (text : List Nat) (s : State) : (s.loadText text).L = some (expand s.cfg text).length := rfl
@[simp] theorem State.loadText_i (text : List Nat) (s : State) : (s.loadText text).i = s.i := rfl
@[simp] theorem State.loadText_start (text : List Nat) (s : State) : (s.loadText text).start = some 0 := rfl
@[simp] theorem State.loadText_program (text : List Nat) (s : State) : (s.loadText text).program = s.program := rfl
@[simp] theorem State.loadText_pos (text : List Nat) (s : State) : (s.loadText text).pos = s.pos := rfl
@[simp] theorem State.loadText_unitCall (text : List Nat) (s : State) : (s.loadText text).unitCall = s.unitCall := rfl
@[simp] theorem State.loadText_unitResult (text : List Nat) (s : State) : (s.loadText text).unitResult = s.unitResult := rfl
@[simp] theorem State.loadText_answers (text : List Nat) (s : State) : (s.loadText text).answers = s.answers := rfl
@[simp] theorem State.loadText_draws (text : List Nat) (s : State) : (s.loadText text).draws = s.draws := rfl

/-! A scroll step sets its registers (R194). -/
@[simp] theorem State.setStep_cfg (k : Nat) (s : State) : (s.setStep k).cfg = s.cfg := rfl
@[simp] theorem State.setStep_life (k : Nat) (s : State) : (s.setStep k).life = s.life := rfl
@[simp] theorem State.setStep_lvl (k : Nat) (s : State) : (s.setStep k).lvl = s.lvl := rfl
@[simp] theorem State.setStep_busy (k : Nat) (s : State) : (s.setStep k).busy = s.busy := rfl
@[simp] theorem State.setStep_events (k : Nat) (s : State) : (s.setStep k).events = s.events := rfl
@[simp] theorem State.setStep_resp (k : Nat) (s : State) : (s.setStep k).resp = s.resp := rfl
@[simp] theorem State.setStep_fb (k : Nat) (s : State) : (s.setStep k).fb = s.fb := rfl
@[simp] theorem State.setStep_st (k : Nat) (s : State) : (s.setStep k).st = s.st := rfl
@[simp] theorem State.setStep_buf (k : Nat) (s : State) : (s.setStep k).buf = s.buf := rfl
@[simp] theorem State.setStep_L (k : Nat) (s : State) : (s.setStep k).L = s.L := rfl
@[simp] theorem State.setStep_i (k : Nat) (s : State) : (s.setStep k).i = some k := rfl
@[simp] theorem State.setStep_start (k : Nat) (s : State) : (s.setStep k).start = some (cursor k) := rfl
@[simp] theorem State.setStep_program (k : Nat) (s : State) : (s.setStep k).program = s.program := rfl
@[simp] theorem State.setStep_pos (k : Nat) (s : State) : (s.setStep k).pos = s.pos := rfl
@[simp] theorem State.setStep_unitCall (k : Nat) (s : State) : (s.setStep k).unitCall = s.unitCall := rfl
@[simp] theorem State.setStep_unitResult (k : Nat) (s : State) : (s.setStep k).unitResult = s.unitResult := rfl
@[simp] theorem State.setStep_answers (k : Nat) (s : State) : (s.setStep k).answers = s.answers := rfl
@[simp] theorem State.setStep_draws (k : Nat) (s : State) : (s.setStep k).draws = s.draws := rfl

/-! A unit operation returns (R106). -/
@[simp] theorem State.unitReturn_cfg (x : State × Answer) : (State.unitReturn x).cfg = x.1.cfg := rfl
@[simp] theorem State.unitReturn_life (x : State × Answer) : (State.unitReturn x).life = x.1.life := rfl
@[simp] theorem State.unitReturn_lvl (x : State × Answer) : (State.unitReturn x).lvl = x.1.lvl := rfl
@[simp] theorem State.unitReturn_busy (x : State × Answer) : (State.unitReturn x).busy = x.1.busy := rfl
@[simp] theorem State.unitReturn_events (x : State × Answer) : (State.unitReturn x).events = x.1.events := rfl
@[simp] theorem State.unitReturn_resp (x : State × Answer) : (State.unitReturn x).resp = x.1.resp := rfl
@[simp] theorem State.unitReturn_fb (x : State × Answer) : (State.unitReturn x).fb = x.1.fb := rfl
@[simp] theorem State.unitReturn_st (x : State × Answer) : (State.unitReturn x).st = x.1.st := rfl
@[simp] theorem State.unitReturn_buf (x : State × Answer) : (State.unitReturn x).buf = x.1.buf := rfl
@[simp] theorem State.unitReturn_L (x : State × Answer) : (State.unitReturn x).L = x.1.L := rfl
@[simp] theorem State.unitReturn_i (x : State × Answer) : (State.unitReturn x).i = x.1.i := rfl
@[simp] theorem State.unitReturn_start (x : State × Answer) : (State.unitReturn x).start = x.1.start := rfl
@[simp] theorem State.unitReturn_program (x : State × Answer) : (State.unitReturn x).program = x.1.program := rfl
@[simp] theorem State.unitReturn_pos (x : State × Answer) : (State.unitReturn x).pos = x.1.pos := rfl
@[simp] theorem State.unitReturn_unitCall (x : State × Answer) : (State.unitReturn x).unitCall = x.1.unitCall := rfl
@[simp] theorem State.unitReturn_unitResult (x : State × Answer) : (State.unitReturn x).unitResult = some x.2 := rfl
@[simp] theorem State.unitReturn_answers (x : State × Answer) : (State.unitReturn x).answers = x.1.answers := rfl
@[simp] theorem State.unitReturn_draws (x : State × Answer) : (State.unitReturn x).draws = x.1.draws := rfl

/-! The claims' own form of events having happened. -/
@[simp] theorem State.afterEvents_cfg (s : State) (es : List Event) : (s.afterEvents es).cfg = s.cfg := rfl
@[simp] theorem State.afterEvents_life (s : State) (es : List Event) : (s.afterEvents es).life = s.life := rfl
@[simp] theorem State.afterEvents_lvl (s : State) (es : List Event) : (s.afterEvents es).lvl = es.foldl Levels.after s.lvl := rfl
@[simp] theorem State.afterEvents_busy (s : State) (es : List Event) : (s.afterEvents es).busy = s.busy := rfl
@[simp] theorem State.afterEvents_events (s : State) (es : List Event) : (s.afterEvents es).events = es.reverse ++ s.events := rfl
@[simp] theorem State.afterEvents_resp (s : State) (es : List Event) : (s.afterEvents es).resp = s.resp := rfl
@[simp] theorem State.afterEvents_fb (s : State) (es : List Event) : (s.afterEvents es).fb = s.fb := rfl
@[simp] theorem State.afterEvents_st (s : State) (es : List Event) : (s.afterEvents es).st = s.st := rfl
@[simp] theorem State.afterEvents_buf (s : State) (es : List Event) : (s.afterEvents es).buf = s.buf := rfl
@[simp] theorem State.afterEvents_L (s : State) (es : List Event) : (s.afterEvents es).L = s.L := rfl
@[simp] theorem State.afterEvents_i (s : State) (es : List Event) : (s.afterEvents es).i = s.i := rfl
@[simp] theorem State.afterEvents_start (s : State) (es : List Event) : (s.afterEvents es).start = s.start := rfl
@[simp] theorem State.afterEvents_program (s : State) (es : List Event) : (s.afterEvents es).program = s.program := rfl
@[simp] theorem State.afterEvents_pos (s : State) (es : List Event) : (s.afterEvents es).pos = s.pos := rfl
@[simp] theorem State.afterEvents_unitCall (s : State) (es : List Event) : (s.afterEvents es).unitCall = s.unitCall := rfl
@[simp] theorem State.afterEvents_unitResult (s : State) (es : List Event) : (s.afterEvents es).unitResult = s.unitResult := rfl
@[simp] theorem State.afterEvents_answers (s : State) (es : List Event) : (s.afterEvents es).answers = s.answers.drop (callCount es) := rfl
@[simp] theorem State.afterEvents_draws (s : State) (es : List Event) : (s.afterEvents es).draws = s.draws + callCount es := rfl

/-! The trace, as the spec orders it (R27). -/

@[simp] theorem State.record_trace (e : Event) (s : State) : (s.record e).trace = s.trace ++ [e] := by
  simp [State.trace]

@[simp] theorem State.drawn_trace (s : State) : s.drawn.trace = s.trace := rfl

@[simp] theorem State.dropWork_trace (s : State) : s.dropWork.trace = s.trace := rfl

@[simp] theorem State.finish_trace (c : Status) (s : State) : (s.finish c).trace = s.trace ++ [.resp c] := by
  simp [State.trace]

@[simp] theorem State.responded_trace (c : Status) (s : State) : (s.responded c).trace = s.trace ++ [.resp c] := by
  simp [State.trace]

@[simp] theorem State.accept_trace (s : State) : s.accept.trace = s.trace := rfl

@[simp] theorem State.loadFrame_trace (bytes : List Byte) (c : Byte) (s : State) :
    (s.loadFrame bytes c).trace = s.trace := rfl

@[simp] theorem State.loadText_trace (text : List Nat) (s : State) : (s.loadText text).trace = s.trace := rfl

@[simp] theorem State.setStep_trace (k : Nat) (s : State) : (s.setStep k).trace = s.trace := rfl

@[simp] theorem State.afterEvents_trace (s : State) (es : List Event) : (s.afterEvents es).trace = s.trace ++ es := by
  simp [State.trace]

/-- Two states with the same fields are the same state. -/
theorem State.ext_fields {s t : State} (cfg : s.cfg = t.cfg) (life : s.life = t.life) (lvl : s.lvl = t.lvl)
    (busy : s.busy = t.busy) (events : s.events = t.events) (resp : s.resp = t.resp) (fb : s.fb = t.fb)
    (st : s.st = t.st) (buf : s.buf = t.buf) (len : s.L = t.L) (i : s.i = t.i) (start : s.start = t.start)
    (program : s.program = t.program) (pos : s.pos = t.pos) (unitCall : s.unitCall = t.unitCall)
    (unitResult : s.unitResult = t.unitResult) (answers : s.answers = t.answers) (draws : s.draws = t.draws) :
    s = t := by
  cases s; cases t; simp_all

/-- The machine's end of a request is the claims' one (R28). -/
theorem State.finish_eq_responded (c : Status) (s : State) : s.finish c = s.responded c := rfl

end Sys2Proof.Machine
end

