-- ==== Sys2Proof/Laws/Calls.lean ====
section
/-! SUPPORT. What the shared operations over the line driver do: one call, a list of calls that stops at the first
`err` (`performAll`), a list of calls that never stops (`performEvery`), and the fail-fast composition. -/

namespace Sys2Proof.Machine

/-! ## Events that happened -/

@[simp] theorem callCount_nil : callCount [] = 0 := rfl

@[simp] theorem callCount_append (a b : List Event) : callCount (a ++ b) = callCount a + callCount b :=
  List.countP_append

@[simp] theorem callCount_cons (e : Event) (es : List Event) :
    callCount (e :: es) = callCount es + if e.isCall then 1 else 0 := by
  simp [callCount, List.countP_cons]

@[simp] theorem afterEvents_nil (s : State) : s.afterEvents [] = s := by
  simp [State.afterEvents]

theorem afterEvents_append (s : State) (a b : List Event) :
    (s.afterEvents a).afterEvents b = s.afterEvents (a ++ b) := by
  simp [State.afterEvents, Nat.add_assoc, Nat.add_comm (callCount a)]

/-- The answers that remain after events are the ones behind theirs. -/
@[simp] theorem answerAt_afterEvents (s : State) (es : List Event) (k : Nat) :
    (s.afterEvents es).answerAt k = s.answerAt (callCount es + k) := by
  simp [State.answerAt, Nat.add_assoc]

theorem allOk_mono {s : State} {m n : Nat} (h : s.allOk n) (hm : m ≤ n) : s.allOk m :=
  fun k hk => h k (by omega)

theorem allOk_zero (s : State) : s.allOk 0 := fun _ h => absurd h (Nat.not_lt_zero _)

theorem allOk_afterEvents {s : State} {es : List Event} {n : Nat} (h : s.allOk (callCount es + n)) :
    (s.afterEvents es).allOk n := fun k hk => by
  rw [answerAt_afterEvents]; exact h _ (by omega)

theorem firstErrAt_afterEvents {s : State} {es : List Event} {k : Nat}
    (h : s.firstErrAt (callCount es + k)) : (s.afterEvents es).firstErrAt k :=
  ⟨allOk_afterEvents h.1, by rw [answerAt_afterEvents]; exact h.2⟩

theorem allOk_append {s : State} {es : List Event} {n : Nat} (h : s.allOk (callCount es))
    (h' : (s.afterEvents es).allOk n) : s.allOk (callCount es + n) := fun k hk => by
  by_cases hc : k < callCount es
  · exact h k hc
  · have := h' (k - callCount es) (by omega)
    rwa [answerAt_afterEvents, Nat.add_sub_cancel' (by omega)] at this

theorem firstErrAt_append {s : State} {es : List Event} {k : Nat} (h : s.allOk (callCount es))
    (h' : (s.afterEvents es).firstErrAt k) : s.firstErrAt (callCount es + k) :=
  ⟨allOk_append h h'.1, by rw [← answerAt_afterEvents]; exact h'.2⟩

/-- Only one call can be the first answered `err`. -/
theorem firstErrAt_unique {s : State} {k m : Nat} (h : s.firstErrAt k) (h' : s.firstErrAt m) : k = m := by
  rcases Nat.lt_trichotomy k m with hk | hk | hk
  · exact absurd (h'.1 k hk) (by rw [h.2]; decide)
  · exact hk
  · exact absurd (h.1 m hk) (by rw [h'.2]; decide)

theorem not_allOk_of_firstErrAt {s : State} {k n : Nat} (h : s.firstErrAt k) (hk : k < n) : ¬ s.allOk n :=
  fun ha => absurd (ha k hk) (by rw [h.2]; decide)

/-- A state whose listed answers are all `ok` answers `ok` that often. -/
theorem allOk_of_answers {s : State} {n : Nat} (h : s.answers = List.replicate n .ok) : s.allOk n := by
  intro k hk
  simp [State.answerAt, h, hk]

/-- A state whose listed answers are `n` times `ok` and then `err` has its first error at call `n`. -/
theorem firstErrAt_of_answers {s : State} {n : Nat} {rest : List Answer}
    (h : s.answers = List.replicate n .ok ++ .err :: rest) : s.firstErrAt n := by
  refine ⟨fun k hk => ?_, ?_⟩
  · simp [State.answerAt, h, List.getElem?_append_left, hk]
  · simp [State.answerAt, h]

/-- Either the next `n` calls are all answered `ok`, or one of them is the first answered `err`. -/
theorem allOk_or_firstErr (s : State) (n : Nat) : s.allOk n ∨ ∃ k < n, s.firstErrAt k := by
  induction n with
  | zero => exact .inl (allOk_zero s)
  | succ n ih =>
    rcases ih with h | ⟨k, hk, h⟩
    · cases ha : s.answerAt n with
      | ok =>
        refine .inl fun k hk => ?_
        rcases Nat.lt_succ_iff_lt_or_eq.mp hk with h' | rfl
        · exact h k h'
        · exact ha
      | err => exact .inr ⟨n, by omega, h, ha⟩
    · exact .inr ⟨k, by omega, h⟩

/-! ## Cutting at a call -/

@[simp] theorem Call.event_isCall (c : Call) (r : Answer) : (c.event r).isCall = true := by cases c <;> rfl

@[simp] theorem Call.event_failed (c : Call) (r : Answer) : (c.event r).failed = c.event .err := by cases c <;> rfl

@[simp] theorem callCount_events (cs : List Call) (r : Answer) : callCount (cs.map (·.event r)) = cs.length := by
  induction cs with
  | nil => rfl
  | cons c cs ih => simp [ih]

theorem cutAtCall_append_left (a b : List Event) {k : Nat} (hk : k < callCount a) :
    cutAtCall k (a ++ b) = cutAtCall k a := by
  induction a generalizing k with
  | nil => simp at hk
  | cons e a ih =>
    simp only [List.cons_append, cutAtCall]
    split
    · rename_i he
      cases k with
      | zero => rfl
      | succ k => simp only; rw [ih]; simp [he] at hk; omega
    · rename_i he
      rw [ih]; simpa [he] using hk

theorem cutAtCall_append_right (a b : List Event) (k : Nat) :
    cutAtCall (callCount a + k) (a ++ b) = a ++ cutAtCall k b := by
  induction a generalizing k with
  | nil => simp
  | cons e a ih =>
    simp only [List.cons_append, cutAtCall, callCount_cons]
    split
    · rename_i he
      rw [show callCount a + 1 + k = (callCount a + k) + 1 by omega]
      simp [ih]
    · simp [ih]

/-! ## One call and lists of calls -/

theorem perform_eq (c : Call) (s : State) :
    s.perform c = (s.afterEvents [c.event (s.answerAt 0)], s.answerAt 0) := by
  simp [State.perform, State.record, State.drawn, State.afterEvents]

theorem delay_eq (ms : Nat) (s : State) : s.delay ms = s.afterEvents [.wait ms] := by
  simp [State.delay, State.record, State.afterEvents, Event.isCall, Event.answer?]

theorem releaseHandles_eq (s : State) : s.releaseHandles = s.afterEvents [.relH] := by
  simp [State.releaseHandles, State.record, State.afterEvents, Event.isCall, Event.answer?]

/-- Every call answered `ok`: all events happen. -/
theorem performAll_allOk {cs : List Call} {s : State} (h : s.allOk cs.length) :
    s.performAll cs = (s.afterEvents (cs.map (·.event .ok)), .ok) := by
  induction cs generalizing s with
  | nil => simp [State.performAll]
  | cons c cs ih =>
    have h0 : s.answerAt 0 = .ok := h 0 (by simp)
    have hr : (s.afterEvents [c.event .ok]).allOk cs.length :=
      allOk_afterEvents (by simpa [Nat.add_comm] using h)
    simp only [State.performAll, perform_eq, h0, ih hr, afterEvents_append, List.map_cons, List.singleton_append]

/-- The first `err` at call `k`: the events up to it happen, it with `err`, and no later one (R104). -/
theorem performAll_firstErr {cs : List Call} {s : State} {k : Nat} (hk : k < cs.length) (h : s.firstErrAt k) :
    s.performAll cs = (s.afterEvents (cutAtCall k (cs.map (·.event .ok))), .err) := by
  induction cs generalizing s k with
  | nil => simp at hk
  | cons c cs ih =>
    cases k with
    | zero => simp [State.performAll, perform_eq, h.2, cutAtCall]
    | succ k =>
      have h0 : s.answerAt 0 = .ok := h.1 0 (by omega)
      have hr : (s.afterEvents [c.event .ok]).firstErrAt k :=
        firstErrAt_afterEvents (by simpa [Nat.add_comm] using h)
      simp only [State.performAll, perform_eq, h0, ih (by simpa using hk) hr, afterEvents_append, List.map_cons,
        List.singleton_append, cutAtCall, Call.event_isCall, if_true]

/-- Everything a list of calls can do. -/
theorem performAll_cases (cs : List Call) (s : State) :
    (s.allOk cs.length ∧ s.performAll cs = (s.afterEvents (cs.map (·.event .ok)), .ok)) ∨
    ∃ k < cs.length, s.firstErrAt k ∧
      s.performAll cs = (s.afterEvents (cutAtCall k (cs.map (·.event .ok))), .err) := by
  rcases allOk_or_firstErr s cs.length with h | ⟨k, hk, h⟩
  · exact .inl ⟨h, performAll_allOk h⟩
  · exact .inr ⟨k, hk, h, performAll_firstErr hk h⟩

/-- Every call is made, each with the answer it draws, and the result is `err` if one of them was. -/
theorem performEvery_eq (cs : List Call) (s : State) :
    s.performEvery cs =
      (s.afterEvents (cs.mapIdx fun k c => c.event (s.answerAt k)),
        if ∀ k < cs.length, s.answerAt k = .ok then .ok else .err) := by
  induction cs generalizing s with
  | nil => simp [State.performEvery]
  | cons c cs ih =>
    simp only [State.performEvery, perform_eq, ih, List.mapIdx_cons, afterEvents_append, List.singleton_append,
      answerAt_afterEvents, callCount_cons, callCount_nil, Call.event_isCall, if_true, List.length_cons]
    have hcomm : ∀ k, s.answerAt (0 + 1 + k) = s.answerAt (k + 1) := fun k => by rw [Nat.zero_add, Nat.add_comm]
    simp only [hcomm, Prod.mk.injEq, true_and]
    have hiff : (∀ k < cs.length + 1, s.answerAt k = .ok) ↔
        s.answerAt 0 = .ok ∧ ∀ k < cs.length, s.answerAt (k + 1) = .ok := by
      constructor
      · exact fun h => ⟨h 0 (by omega), fun k hk => h (k + 1) (by omega)⟩
      · rintro ⟨h0, h⟩ (_ | k) hk
        · exact h0
        · exact h k (by omega)
    simp only [hiff]
    by_cases h0 : s.answerAt 0 = .ok
    · simp only [h0, if_true, true_and]
    · simp only [h0, if_false, false_and]

/-! ## Fail-fast composition -/

@[simp] theorem andThen_ok (t : State) (k : State → State × Answer) : andThen (t, .ok) k = k t := rfl

@[simp] theorem andThen_err (t : State) (k : State → State × Answer) : andThen (t, .err) k = (t, .err) := rfl

theorem performAll_append (a b : List Call) (s : State) :
    s.performAll (a ++ b) = andThen (s.performAll a) (State.performAll b) := by
  induction a generalizing s with
  | nil => rfl
  | cons c a ih =>
    simp only [List.cons_append, State.performAll]
    rcases s.perform c with ⟨t, _ | _⟩
    · exact ih t
    · rfl

end Sys2Proof.Machine
end

