-- ==== Sys2Proof/Laws/Encoder.lean ====
section
/-! SUPPORT. The Protocol Encoder's procedures send the layout that Safety.lean writes by bit position (R44, R60, R67,
R68): `frame_events` is the one lemma to cite. -/

namespace Sys2Proof.Machine

/-- The bits of the data part of a frame, from the byte at index `j` on. -/
def dataBits (j : Nat) : List Byte → List Bool
  | [] => []
  | v :: d => lowBits v slotBits ++ (if j % 2 = 1 then List.replicate oddPad false else []) ++ dataBits (j + 1) d

theorem emitData_eq (j : Nat) (d : List Byte) : emitData j d = (dataBits j d).flatMap emitBit := by
  induction d generalizing j with
  | nil => rfl
  | cons v d ih =>
    simp only [emitData, dataBits, ih, emitBits, List.flatMap_append]
    split <;> simp

/-- A frame's calls are its strobe edges around its bits. -/
theorem frame_eq (stb : Pin) (cmd : Byte) (d : List Byte) :
    frame stb cmd d =
      .setLevel stb false :: ((lowBits cmd cmdBits ++ dataBits 0 (d.take maxData)).flatMap emitBit ++
        [.setLevel stb true]) := by
  simp [frame, emitData_eq, emitBits, List.flatMap_append]

theorem dataBits_parity (j : Nat) (d : List Byte) : dataBits (j + 2) d = dataBits j d := by
  induction d generalizing j with
  | nil => rfl
  | cons v d ih => simp [dataBits, ih (j + 1), show j + 2 + 1 = j + 1 + 2 by omega]

theorem range_map_add {α : Type} (m n : Nat) (f : Nat → α) :
    (List.range (m + n)).map f = (List.range m).map f ++ (List.range n).map fun k => f (m + k) := by
  rw [List.range_add, List.map_append, List.map_map]; rfl

/-- The data bits by position: 16 slots for each pair of bytes (R44). -/
theorem dataBits_eq (cmd : Byte) : ∀ d : List Byte,
    dataBits 0 d = (List.range (slotCount d.length - 8)).map fun k => slotBit cmd d (8 + k)
  | [] => rfl
  | [v] => by
    simp [dataBits, slotCount, lowBits, slotBit, List.range_succ]
  | v :: w :: d => by
    have ih := dataBits_eq cmd d
    have hlen : slotCount (v :: w :: d).length - 8 = 16 + (slotCount d.length - 8) := by
      simp only [slotCount, List.length_cons]; omega
    have hstep : dataBits 0 (v :: w :: d) =
        lowBits v slotBits ++ lowBits w slotBits ++ List.replicate oddPad false ++ dataBits 0 d := by
      simp [dataBits, dataBits_parity 0 d]
    have hrest : ∀ k, slotBit cmd (v :: w :: d) (8 + (16 + k)) = slotBit cmd d (8 + k) := by
      intro k
      have h1 : (8 + (16 + k) - 8) % 16 = (8 + k - 8) % 16 := by omega
      have h2 : (8 + (16 + k) - 8) / 16 = (8 + k - 8) / 16 + 1 := by omega
      have e1 : 2 * ((8 + k - 8) / 16 + 1) = 2 * ((8 + k - 8) / 16) + 1 + 1 := by omega
      simp only [slotBit, h1, h2, e1, List.getD_cons_succ,
        show ¬ (8 + (16 + k) < 8) by omega, show ¬ (8 + k < 8) by omega, if_false]
    rw [hstep, hlen, range_map_add]
    simp only [hrest, ← ih]
    simp [lowBits, slotBit, List.range_succ, List.replicate]

theorem slotBit_take (cmd : Byte) (d : List Byte) {k : Nat} (hk : k < slotCount (min d.length 14)) :
    slotBit cmd (d.take 14) k = slotBit cmd d k := by
  have hget : ∀ i, i < 14 → (d.take 14).getD i 0 = d.getD i 0 := by
    intro i hi; simp [List.getD_eq_getElem?_getD, hi]
  have hb : slotCount (min d.length 14) ≤ 120 := by
    have : min d.length 14 ≤ 14 := Nat.min_le_right _ _
    simp only [slotCount]; omega
  unfold slotBit
  split
  · rfl
  · rw [hget _ (by omega), hget _ (by omega)]

/-- The bits of a frame are the layout's. -/
theorem frame_bits (cmd : Byte) (d : List Byte) :
    lowBits cmd cmdBits ++ dataBits 0 (d.take maxData) = frameBits cmd d := by
  have hlen : (d.take 14).length = min d.length 14 := by simp [Nat.min_comm]
  have h8 : slotCount (min d.length 14) = 8 + (slotCount (min d.length 14) - 8) := by simp only [slotCount]; omega
  have hcmd : lowBits cmd cmdBits = (List.range 8).map (slotBit cmd d) := by
    simp [lowBits, slotBit, List.range_succ]
  rw [dataBits_eq cmd, hlen, frameBits, h8, range_map_add, hcmd, Nat.add_sub_cancel_left]
  congr 1
  refine List.map_congr_left fun k hk => slotBit_take cmd d ?_
  have := List.mem_range.mp hk
  omega

@[simp] theorem emitBit_events (b : Bool) : (emitBit b).map (·.event .ok) = slotEvents b := rfl

/-- THE LAW OF Frame: with every call answered `ok` its events are the layout's (R60, R102). -/
theorem frame_events (stb : Pin) (cmd : Byte) (d : List Byte) :
    (frame stb cmd d).map (·.event .ok) = frameEvents stb cmd d := by
  rw [frame_eq, frame_bits, frameEvents]
  simp only [List.map_cons, List.map_append, List.map_flatMap, emitBit_events, List.map_nil]
  rfl

theorem frameBits_length (cmd : Byte) (d : List Byte) :
    (frameBits cmd d).length = slotCount (min d.length 14) := by simp [frameBits]

theorem flatMap_slotEvents_length (bs : List Bool) : (bs.flatMap slotEvents).length = 3 * bs.length := by
  induction bs with
  | nil => rfl
  | cons b bs ih => simp [slotEvents, ih]; omega

/-- A frame has `E(n)` events (R68). -/
theorem frameEvents_length (stb : Pin) (cmd : Byte) (d : List Byte) :
    (frameEvents stb cmd d).length = eventCount (min d.length 14) := by
  simp only [frameEvents, List.length_cons, List.length_append, flatMap_slotEvents_length, frameBits_length,
    List.length_nil, eventCount]
  omega

/-- Every event of a frame is a line write that was answered `ok`. -/
theorem frameEvents_writes (stb : Pin) (cmd : Byte) (d : List Byte) :
    ∀ e ∈ frameEvents stb cmd d, ∃ p b, e = .lvl p b .ok := by
  intro e he
  simp only [frameEvents, List.mem_cons, List.mem_append, List.mem_flatMap, slotEvents, List.not_mem_nil,
    or_false] at he
  rcases he with rfl | ⟨b, -, rfl | rfl | rfl⟩ | rfl <;> exact ⟨_, _, rfl⟩

theorem callCount_of_writes {es : List Event} (h : ∀ e ∈ es, ∃ p b, e = .lvl p b .ok) :
    callCount es = es.length := by
  rw [callCount, List.countP_eq_length]
  intro e he
  obtain ⟨p, b, rfl⟩ := h e he
  rfl

@[simp] theorem callCount_frameEvents (stb : Pin) (cmd : Byte) (d : List Byte) :
    callCount (frameEvents stb cmd d) = eventCount (min d.length 14) := by
  rw [callCount_of_writes (frameEvents_writes stb cmd d), frameEvents_length]

theorem frame_length (stb : Pin) (cmd : Byte) (d : List Byte) :
    (frame stb cmd d).length = eventCount (min d.length 14) := by
  rw [← frameEvents_length stb cmd d, ← frame_events]; simp

theorem unitPins_stb (u : UnitId) : (unitPins u).stb = strobe u := by cases u <;> rfl

/-! ## Operations that send events in order -/

/-- From `s`, `op` sends the events `es` in order: all of them and `ok`, or those up to the first call answered `err`
and `err` (R104, R149). -/
structure SendsAt (op : State → State × Answer) (s : State) (es : List Event) : Prop where
  allOk : s.allOk (callCount es) → op s = (s.afterEvents es, .ok)
  firstErr : ∀ k < callCount es, s.firstErrAt k → op s = (s.afterEvents (cutAtCall k es), .err)

/-- Everything such an operation can do. -/
theorem SendsAt.cases {op : State → State × Answer} {s : State} {es : List Event} (h : SendsAt op s es) :
    op s = (s.afterEvents es, .ok) ∨ ∃ k < callCount es, op s = (s.afterEvents (cutAtCall k es), .err) := by
  rcases allOk_or_firstErr s (callCount es) with ha | ⟨k, hk, he⟩
  · exact .inl (h.allOk ha)
  · exact .inr ⟨k, hk, h.firstErr k hk he⟩

/-- Two such operations, fail-fast, send the one's events and then the other's. -/
theorem SendsAt.andThen {op₁ op₂ : State → State × Answer} {s : State} {a b : List Event}
    (h₁ : SendsAt op₁ s a) (h₂ : SendsAt op₂ (s.afterEvents a) b) :
    SendsAt (fun s => Machine.andThen (op₁ s) op₂) s (a ++ b) where
  allOk h := by
    rw [callCount_append] at h
    simp only [h₁.allOk (allOk_mono h (Nat.le_add_right _ _)), andThen_ok, h₂.allOk (allOk_afterEvents h),
      afterEvents_append]
  firstErr k hk h := by
    rw [callCount_append] at hk
    by_cases hka : k < callCount a
    · simp only [h₁.firstErr k hka h, andThen_err, cutAtCall_append_left a b hka]
    · obtain ⟨m, rfl⟩ : ∃ m, k = callCount a + m := ⟨k - callCount a, by omega⟩
      simp only [h₁.allOk (allOk_mono h.1 (Nat.le_add_right _ _)), andThen_ok,
        h₂.firstErr m (by omega) (firstErrAt_afterEvents h), afterEvents_append, cutAtCall_append_right]

theorem performAll_sends (cs : List Call) (s : State) : SendsAt (State.performAll cs) s (cs.map (·.event .ok)) where
  allOk h := performAll_allOk (by simpa using h)
  firstErr k hk h := performAll_firstErr (by simpa using hk) h

/-- THE LAW OF ONE WIRE FRAME to a unit (R60, R102, R104). -/
theorem sendFrame_sends (u : UnitId) (cmd : Byte) (d : List Byte) (s : State) :
    SendsAt (State.sendFrame u cmd d) s (frameEvents (strobe u) cmd d) := by
  rw [← frame_events, ← unitPins_stb]
  exact performAll_sends _ s

end Sys2Proof.Machine
end

