-- ==== Sys2Proof/Laws/Screen.lean ====
section
/-! SUPPORT. What the unit, Screen and renderer operations send, in the claims' terms: `SendsAt` laws for the unit
operations, the combined operations, WriteFrame, the static render and the scroll, and the configuration calls of INIT. -/

namespace Sys2Proof.Machine

/-! ## Units and both units -/

theorem unitSetDisplayMode_sends (u : UnitId) (s : State) :
    SendsAt (State.unitSetDisplayMode u) s (frameEvents (strobe u) s.cfg.displayModeCmd []) :=
  ⟨(sendFrame_sends u _ _ s).allOk, (sendFrame_sends u _ _ s).firstErr⟩

theorem unitSetDataMode_sends (u : UnitId) (s : State) :
    SendsAt (State.unitSetDataMode u) s (frameEvents (strobe u) s.cfg.dataModeCmd []) :=
  ⟨(sendFrame_sends u _ _ s).allOk, (sendFrame_sends u _ _ s).firstErr⟩

theorem unitSetPower_sends (on : Bool) (b : Byte) (u : UnitId) (s : State) :
    SendsAt (State.unitSetPower on b u) s (frameEvents (strobe u) (powerByte on b) []) :=
  sendFrame_sends u _ _ s

theorem unitWriteColumns_sends (u : UnitId) (d : List Byte) (s : State) :
    SendsAt (State.unitWriteColumns u d) s (frameEvents (strobe u) 0xC0 d) :=
  sendFrame_sends u _ _ s

/-- Left first, then right (R50). -/
theorem bothUnits_sends {op : UnitId → State → State × Answer} {s : State} {a b : List Event}
    (hl : SendsAt (op .left) s a) (hr : SendsAt (op .right) (s.afterEvents a) b) :
    SendsAt (State.bothUnits op) s (a ++ b) :=
  hl.andThen hr

theorem setDisplayMode_sends (s : State) :
    SendsAt (State.bothUnits State.unitSetDisplayMode) s (bothCommand s.cfg.displayModeCmd) :=
  bothUnits_sends (unitSetDisplayMode_sends .left s) (unitSetDisplayMode_sends .right _)

theorem setDataMode_sends (s : State) :
    SendsAt (State.bothUnits State.unitSetDataMode) s (bothCommand s.cfg.dataModeCmd) :=
  bothUnits_sends (unitSetDataMode_sends .left s) (unitSetDataMode_sends .right _)

theorem setPower_sends (on : Bool) (b : Byte) (s : State) :
    SendsAt (State.bothUnits (State.unitSetPower on b)) s (bothCommand (powerByte on b)) :=
  bothUnits_sends (unitSetPower_sends on b .left s) (unitSetPower_sends on b .right _)

/-! ## Frames of columns -/

theorem pad27_length {bytes : List Byte} (h : bytes.length ≤ 27) : (pad27 bytes).length = 27 := by
  simp only [pad27, cols, List.length_append, List.length_replicate]; omega

theorem pad27_getD (bytes : List Byte) (c : Nat) : (pad27 bytes).getD c 0 = bytes.getD c 0 := by
  simp only [pad27, List.getD_eq_getElem?_getD, List.getElem?_append]
  split
  · rfl
  · rename_i h
    rw [List.getElem?_eq_none (l := bytes) (by omega)]
    simp only [List.getElem?_replicate]
    split <;> rfl

/-- A list is what its elements are. -/
theorem eq_map_range {xs : List Byte} {n : Nat} {f : Nat → Byte} (hn : xs.length = n)
    (h : ∀ c < n, xs.getD c 0 = f c) : xs = (List.range n).map f := by
  refine List.ext_getElem (by simp [hn]) fun c h1 _ => ?_
  have := h c (by omega)
  simpa [List.getD_eq_getElem?_getD, List.getElem?_eq_getElem h1] using this

theorem slice_getD (xs : List Byte) (a b c : Nat) :
    (slice xs a b).getD c 0 = if a + c < b then xs.getD (a + c) 0 else 0 := by
  simp only [slice, List.getD_eq_getElem?_getD, List.getElem?_drop, List.getElem?_take]
  split <;> rfl

theorem slice_length {xs : List Byte} {a b : Nat} (hb : b ≤ xs.length) : (slice xs a b).length = b - a := by
  simp only [slice, List.length_drop, List.length_take]; omega

theorem leftData_eq {fb : List Byte} {col : Nat → Byte} (hl : fb.length = 27)
    (hc : ∀ c < 27, fb.getD c 0 = col c) : leftData fb = (List.range 14).map col := by
  simp only [leftData, leftCols]
  refine eq_map_range (by rw [slice_length (by omega)]) fun c h => ?_
  rw [slice_getD, if_pos (by omega), Nat.zero_add, hc c (by omega)]

theorem rightData_eq {fb : List Byte} {col : Nat → Byte} (st : Byte) (hl : fb.length = 27)
    (hc : ∀ c < 27, fb.getD c 0 = col c) :
    rightData fb st = (List.range 13).map (fun j => col (14 + j)) ++ [st] := by
  simp only [rightData, leftCols, cols]
  congr 1
  refine eq_map_range (by rw [slice_length (by omega)]) fun c h => ?_
  rw [slice_getD, if_pos (by omega), hc _ (by omega)]

/-- THE LAW OF WriteFrame: from the loaded registers it sends the two wire frames of the columns (R42, R145). -/
theorem sendColumns_sends {bytes : List Byte} {col : Nat → Byte} (st : Byte) (s : State) (hl : bytes.length ≤ 27)
    (hc : ∀ c < 27, bytes.getD c 0 = col c) :
    SendsAt (State.bothUnits State.sendColumns) (s.loadFrame bytes st) (screenEvents col st) := by
  have hcol : ∀ c < 27, (pad27 bytes).getD c 0 = col c := fun c h => by rw [pad27_getD, hc c h]
  refine bothUnits_sends ?_ ?_
  · have := unitWriteColumns_sends .left (leftData (pad27 bytes)) (s.loadFrame bytes st)
    rw [leftData_eq (pad27_length hl) hcol] at this
    exact ⟨fun h => by
        rw [State.sendColumns, State.columns, State.loadFrame_fb, Option.getD_some,
          leftData_eq (pad27_length hl) hcol]; exact this.allOk h,
      fun k hk h => by
        rw [State.sendColumns, State.columns, State.loadFrame_fb, Option.getD_some,
          leftData_eq (pad27_length hl) hcol]; exact this.firstErr k hk h⟩
  · have hr := rightData_eq st (pad27_length hl) hcol
    have := fun t => unitWriteColumns_sends .right (rightData (pad27 bytes) st) t
    simp only [hr] at this
    exact ⟨fun h => by
        rw [State.sendColumns, State.columns, State.statusByte, State.afterEvents_fb, State.afterEvents_st,
          State.loadFrame_fb, State.loadFrame_st, Option.getD_some, Option.getD_some, hr]; exact (this _).allOk h,
      fun k hk h => by
        rw [State.sendColumns, State.columns, State.statusByte, State.afterEvents_fb, State.afterEvents_st,
          State.loadFrame_fb, State.loadFrame_st, Option.getD_some, Option.getD_some, hr]
        exact (this _).firstErr k hk h⟩

/-! ## How many events -/

/-- Two command-only frames are 52 calls (R68). -/
@[simp] theorem callCount_bothCommand (cmd : Byte) : callCount (bothCommand cmd) = 52 := by
  rw [bothCommand, callCount_append, callCount_frameEvents, callCount_frameEvents]; rfl

/-- A screen frame is 724 calls (R68, R145). -/
@[simp] theorem callCount_screenEvents (col : Nat → Byte) (st : Byte) : callCount (screenEvents col st) = 724 := by
  rw [screenEvents, callCount_append, callCount_frameEvents, callCount_frameEvents]; simp; rfl

/-! ## Operations that also use the working registers -/

/-- From `s`, `op` sends `es` in order and may leave other values in the frame registers and in `i` and `start`, which
no later request reads; `buf` and `L` it keeps. -/
structure SendsKeepingText (op : State → State × Answer) (s : State) (es : List Event) : Prop where
  allOk : s.allOk (callCount es) →
    ∃ t, op s = (t, .ok) ∧ t.dropWork = (s.afterEvents es).dropWork ∧ t.buf = s.buf ∧ t.L = s.L
  firstErr : ∀ k < callCount es, s.firstErrAt k →
    ∃ t, op s = (t, .err) ∧ t.dropWork = (s.afterEvents (cutAtCall k es)).dropWork ∧ t.buf = s.buf ∧ t.L = s.L

theorem dropWork_answerAt (s : State) (k : Nat) : s.dropWork.answerAt k = s.answerAt k := rfl

theorem allOk_of_dropWork {s t : State} (h : t.dropWork = s.dropWork) {n : Nat} (hs : s.allOk n) : t.allOk n := by
  intro k hk
  rw [← dropWork_answerAt, h, dropWork_answerAt]; exact hs k hk

theorem firstErrAt_of_dropWork {s t : State} (h : t.dropWork = s.dropWork) {k : Nat} (hs : s.firstErrAt k) :
    t.firstErrAt k :=
  ⟨allOk_of_dropWork h hs.1, by rw [← dropWork_answerAt, h, dropWork_answerAt]; exact hs.2⟩

theorem afterEvents_dropWork (s : State) (es : List Event) :
    (s.afterEvents es).dropWork = s.dropWork.afterEvents es := rfl

/-- The end of a request forgets the working registers (R226 (d)). -/
theorem responded_of_dropWork {s t : State} (h : t.dropWork = s.dropWork) (c : Status) :
    t.responded c = s.responded c := by
  have : t.dropWork.responded c = s.dropWork.responded c := by rw [h]
  exact this

theorem SendsKeepingText.cases {op : State → State × Answer} {s : State} {es : List Event}
    (h : SendsKeepingText op s es) :
    (∃ t, op s = (t, .ok) ∧ t.dropWork = (s.afterEvents es).dropWork ∧ t.buf = s.buf ∧ t.L = s.L) ∨
    ∃ k < callCount es,
      ∃ t, op s = (t, .err) ∧ t.dropWork = (s.afterEvents (cutAtCall k es)).dropWork ∧ t.buf = s.buf ∧ t.L = s.L := by
  rcases allOk_or_firstErr s (callCount es) with ha | ⟨k, hk, he⟩
  · exact .inl (h.allOk ha)
  · exact .inr ⟨k, hk, h.firstErr k hk he⟩

theorem SendsKeepingText.andThen {op₁ op₂ : State → State × Answer} {s : State} {a b : List Event}
    (h₁ : SendsKeepingText op₁ s a)
    (h₂ : ∀ t, t.dropWork = (s.afterEvents a).dropWork → t.buf = s.buf → t.L = s.L → SendsKeepingText op₂ t b) :
    SendsKeepingText (fun s => Machine.andThen (op₁ s) op₂) s (a ++ b) where
  allOk h := by
    rw [callCount_append] at h
    obtain ⟨t, ht, hd, hb, hL⟩ := h₁.allOk (allOk_mono h (Nat.le_add_right _ _))
    obtain ⟨r, hr, hrd, hrb, hrL⟩ := (h₂ t hd hb hL).allOk (allOk_of_dropWork hd (allOk_afterEvents h))
    refine ⟨r, by simp only [ht, andThen_ok, hr], ?_, hrb.trans hb, hrL.trans hL⟩
    rw [hrd, afterEvents_dropWork, hd, ← afterEvents_dropWork, afterEvents_append]
  firstErr k hk h := by
    rw [callCount_append] at hk
    by_cases hka : k < callCount a
    · obtain ⟨t, ht, hd, hb⟩ := h₁.firstErr k hka h
      exact ⟨t, by simp only [ht, andThen_err], by rw [hd, cutAtCall_append_left a b hka], hb⟩
    · obtain ⟨m, rfl⟩ : ∃ m, k = callCount a + m := ⟨k - callCount a, by omega⟩
      obtain ⟨t, ht, hd, hb, hL⟩ := h₁.allOk (allOk_mono h.1 (Nat.le_add_right _ _))
      obtain ⟨r, hr, hrd, hrb, hrL⟩ :=
        (h₂ t hd hb hL).firstErr m (by omega) (firstErrAt_of_dropWork hd (firstErrAt_afterEvents h))
      refine ⟨r, by simp only [ht, andThen_ok, hr], ?_, hrb.trans hb, hrL.trans hL⟩
      rw [hrd, afterEvents_dropWork, hd, ← afterEvents_dropWork, afterEvents_append, cutAtCall_append_right]

/-- WriteFrame, as the other operations use it. -/
theorem writeFrame_sends {bytes : List Byte} {col : Nat → Byte} (st : Byte) (s : State) (hl : bytes.length ≤ 27)
    (hc : ∀ c < 27, bytes.getD c 0 = col c) :
    SendsKeepingText (State.writeFrame bytes st) s (screenEvents col st) where
  allOk h := ⟨_, (sendColumns_sends st s hl hc).allOk h, rfl, rfl, rfl⟩
  firstErr k hk h := ⟨_, (sendColumns_sends st s hl hc).firstErr k hk h, rfl, rfl, rfl⟩

/-! ## Rendering -/

theorem centred_length {buf : List Byte} (h : buf.length ≤ 27) : (centred buf).length = 27 := by
  simp only [centred, cols, List.length_append, List.length_replicate]; omega

theorem centred_getD (buf : List Byte) (c : Nat) :
    (centred buf).getD c 0 = centredColumn buf c := by
  simp only [centred, cols, centredColumn, List.getD_eq_getElem?_getD, List.append_assoc]
  by_cases h1 : c < (27 - buf.length) / 2
  · rw [List.getElem?_append_left (by simpa using h1), List.getElem?_replicate, if_pos h1, if_neg (by omega)]
    rfl
  · rw [List.getElem?_append_right (by simpa using h1), if_pos (by omega), List.length_replicate]
    by_cases h2 : c - (27 - buf.length) / 2 < buf.length
    · rw [List.getElem?_append_left h2]
    · rw [List.getElem?_append_right (by omega), List.getElem?_replicate, List.getElem?_eq_none (l := buf) (by omega)]
      split <;> rfl

theorem staticRender_sends (st : Byte) (s : State) (h : s.buffer.length ≤ 27) :
    SendsKeepingText (State.staticRender st) s (screenEvents (centredColumn s.buffer) st) :=
  have hw := writeFrame_sends st s (bytes := centred s.buffer) (col := centredColumn s.buffer)
    (by rw [centred_length h]) fun c _ => centred_getD _ c
  ⟨hw.allOk, hw.firstErr⟩

theorem delay_sends (ms : Nat) (s : State) :
    SendsKeepingText (fun t => (t.delay ms, .ok)) s [.wait ms] where
  allOk _ := ⟨_, rfl, by rw [delay_eq], by rw [delay_eq]; rfl, by rw [delay_eq]; rfl⟩
  firstErr k hk _ := by simp [callCount, Event.isCall, Event.answer?] at hk

/-- One scroll step sends its window and one wait (R194, R195). -/
theorem scrollStep_sends (st : Byte) (i : Nat) (s : State) (hi : i ≤ s.buffer.length) :
    SendsKeepingText (State.scrollStep st i) s
      (screenEvents (scrollColumn s.buffer i) st ++ [.wait 128]) := by
  have hwin : (s.setStep i).window = slice s.buffer (i - 27) i := rfl
  have hw := (writeFrame_sends st (s.setStep i) (bytes := (s.setStep i).window) (col := scrollColumn s.buffer i)
    (by rw [hwin, slice_length hi]; omega) fun c _ => by rw [hwin, slice_getD, scrollColumn]).andThen
    (op₂ := fun t => (t.delay stepMs, .ok)) (b := [.wait 128]) fun t _ _ _ => delay_sends stepMs t
  exact ⟨hw.allOk, hw.firstErr⟩

theorem scrollFrom_sends (st : Byte) (n i : Nat) (s : State) (hn : i + n ≤ s.buffer.length + 1) :
    SendsKeepingText (State.scrollFrom st n i) s
      ((List.range n).flatMap fun k => screenEvents (scrollColumn s.buffer (i + k)) st ++ [.wait 128]) := by
  induction n generalizing i s with
  | zero =>
    exact ⟨fun _ => ⟨s, rfl, by simp, rfl, rfl⟩, fun k hk => by simp at hk⟩
  | succ n ih =>
    rw [List.range_succ_eq_map, List.flatMap_cons, List.flatMap_map]
    have hstep := scrollStep_sends st i s (by omega)
    refine (hstep.andThen (op₂ := State.scrollFrom st n (i + 1)) fun t _ hb _ => ?_)
    have hbuf : t.buffer = s.buffer := by rw [State.buffer, hb, State.buffer]
    have := ih (i + 1) t (by rw [hbuf]; omega)
    rw [hbuf] at this
    simpa only [Nat.add_right_comm i, Nat.add_assoc, Nat.add_comm 1] using this

/-- THE LAW OF THE SCROLL (R194 to R197, R201). -/
theorem scrollRender_sends (st : Byte) (s : State) (hL : s.L = some s.buffer.length) :
    SendsKeepingText (State.scrollRender st) s (scrollEvents s.buffer st) := by
  have := scrollFrom_sends st s.buffer.length 1 s (by omega)
  have hlen : s.encodedLength = s.buffer.length := by rw [State.encodedLength, hL]; rfl
  simp only [Nat.add_comm 1] at this
  exact ⟨fun h => by rw [State.scrollRender, hlen]; exact this.allOk h,
    fun k hk h => by rw [State.scrollRender, hlen]; exact this.firstErr k hk h⟩

/-! ## INIT and the release calls -/

theorem configureCalls_events : configureCalls.map (·.event .ok) = initEvents := rfl

theorem configure_sends (s : State) : SendsAt (State.performAll configureCalls) s initEvents :=
  performAll_sends _ s

theorem releaseCalls_eq : releaseCalls = releaseOrder.map Call.release := rfl

/-! ## Requests -/

/-- From `s`, `op` sends `es` in order and may leave other values in the working registers. -/
structure Sends (op : State → State × Answer) (s : State) (es : List Event) : Prop where
  allOk : s.allOk (callCount es) → ∃ t, op s = (t, .ok) ∧ t.dropWork = (s.afterEvents es).dropWork
  firstErr : ∀ k < callCount es, s.firstErrAt k →
    ∃ t, op s = (t, .err) ∧ t.dropWork = (s.afterEvents (cutAtCall k es)).dropWork

theorem SendsAt.sends {op : State → State × Answer} {s : State} {es : List Event} (h : SendsAt op s es) :
    Sends op s es where
  allOk ha := ⟨_, h.allOk ha, rfl⟩
  firstErr k hk he := ⟨_, h.firstErr k hk he, rfl⟩

theorem SendsKeepingText.sends {op : State → State × Answer} {s : State} {es : List Event}
    (h : SendsKeepingText op s es) : Sends op s es where
  allOk ha := let ⟨t, ht, hd, _⟩ := h.allOk ha; ⟨t, ht, hd⟩
  firstErr k hk he := let ⟨t, ht, hd, _⟩ := h.firstErr k hk he; ⟨t, ht, hd⟩

/-- A request whose operation sends `es`, performed in the life value it needs (R28, R224). -/
theorem runIn_sends {op : State → State × Answer} {s : State} {es : List Event} {need : Life}
    (hlife : s.life = need) (h : Sends op s es) :
    (s.allOk (callCount es) →
      s.runIn need (fun s => ((op s).1, lineStatus (op s).2)) = (s.afterEvents es).responded .ok) ∧
    ∀ k < callCount es, s.firstErrAt k →
      s.runIn need (fun s => ((op s).1, lineStatus (op s).2)) =
        (s.afterEvents (cutAtCall k es)).responded .errLineWrite := by
  constructor
  · intro ha
    obtain ⟨t, ht, hd⟩ := h.allOk ha
    simp only [State.runIn, hlife, if_true, ht, lineStatus, State.finish_eq_responded, responded_of_dropWork hd]
  · intro k hk he
    obtain ⟨t, ht, hd⟩ := h.firstErr k hk he
    simp only [State.runIn, hlife, if_true, ht, lineStatus, State.finish_eq_responded, responded_of_dropWork hd]

/-- In another life value a request only gets `ERR_STATE` (R224). -/
theorem runIn_wrong {need : Life} {op : State → State × Status} {s : State} (h : s.life ≠ need) :
    s.runIn need op = s.responded .errState := by
  simp only [State.runIn, if_neg h, State.finish_eq_responded]

/-- RENDER's two paths, from the state before its registers are loaded (R190, R191). -/
theorem render_sends (st : Byte) (text : List Nat) (s : State) :
    Sends (fun s => if (s.loadText text).encodedLength ≤ cols then (s.loadText text).staticRender st
        else (s.loadText text).scrollRender st) s
      (if (expand s.cfg text).length ≤ 27 then screenEvents (centredColumn (expand s.cfg text)) st
        else scrollEvents (expand s.cfg text) st) := by
  have hlen : (s.loadText text).encodedLength = (expand s.cfg text).length := rfl
  by_cases hs : (expand s.cfg text).length ≤ 27
  · have h := (staticRender_sends st (s.loadText text) hs).sends
    rw [if_pos hs]
    exact ⟨fun ha => by simp only [hlen, cols, if_pos hs]; exact h.allOk ha,
      fun k hk he => by simp only [hlen, cols, if_pos hs]; exact h.firstErr k hk he⟩
  · have h := (scrollRender_sends st (s.loadText text) rfl).sends
    rw [if_neg hs]
    exact ⟨fun ha => by simp only [hlen, cols, if_neg hs]; exact h.allOk ha,
      fun k hk he => by simp only [hlen, cols, if_neg hs]; exact h.firstErr k hk he⟩

end Sys2Proof.Machine
end

