-- ==== Sys2Proof/Laws/Exec.lean ====
section
/-! SUPPORT. What an instruction can do, said once: `exec_host` for the host requests and `exec_unit` for the wire
commands. Claims about every request go through these two and not through the meanings. -/

namespace Sys2Proof.Machine

/-! ## Cut events -/

/-- A list cut at one of its calls: everything before the call, and the call answered `err`. -/
theorem cutAtCall_eq {es : List Event} {k : Nat} (hk : k < callCount es) :
    ∃ p e q, es = p ++ e :: q ∧ e.isCall = true ∧ callCount p = k ∧ cutAtCall k es = p ++ [e.failed] := by
  induction es generalizing k with
  | nil => simp at hk
  | cons e es ih =>
    by_cases he : e.isCall = true
    · cases k with
      | zero => exact ⟨[], e, es, rfl, he, rfl, by simp [cutAtCall, he]⟩
      | succ k =>
        obtain ⟨p, e', q, h1, h2, h3, h4⟩ := ih (k := k) (by simpa [he] using hk)
        exact ⟨e :: p, e', q, by simp [h1], h2, by simp [he, h3], by simp [cutAtCall, he, h4]⟩
    · obtain ⟨p, e', q, h1, h2, h3, h4⟩ := ih (k := k) (by simpa [he] using hk)
      exact ⟨e :: p, e', q, by simp [h1], h2, by simp [he, h3], by simp [cutAtCall, he, h4]⟩

theorem Event.failed_isCall (e : Event) : e.failed.isCall = e.isCall := by cases e <;> rfl

theorem Event.failed_answer {e : Event} (h : e.isCall = true) : e.failed.answer? = some .err := by
  cases e <;> first | rfl | cases h

theorem Event.failed_isWrite (e : Event) : e.failed.isWrite = e.isWrite := by cases e <;> rfl

theorem Event.failed_isConfig (e : Event) : e.failed.isConfig = e.isConfig := by cases e <;> rfl

theorem callCount_cutAtCall {es : List Event} {k : Nat} (hk : k < callCount es) :
    callCount (cutAtCall k es) = k + 1 := by
  obtain ⟨p, e, q, -, he, hp, hc⟩ := cutAtCall_eq hk
  simp [hc, hp, Event.failed_isCall, he]

/-! ## What line requests send -/

/-- A line write answered `ok`, or a scroll's wait: what a request other than INIT and SHUTDOWN sends. -/
def SentLine (e : Event) : Prop := (∃ p b, e = .lvl p b .ok) ∨ e = .wait 128

/-- The events of a host request other than INIT and SHUTDOWN whose calls all succeed, in the claims' terms. -/
def sentEvents (s : State) : Instr → List Event
  | .setDisplayMode => bothCommand s.cfg.displayModeCmd
  | .setDataMode => bothCommand s.cfg.dataModeCmd
  | .setPowerOff _ => bothCommand 0x80
  | .setPowerOn b => bothCommand (0x88 ||| (b &&& 0x07))
  | .writeFrame st bytes => screenEvents (plainColumn bytes) st
  | .render st text =>
    if (expand s.cfg text).length ≤ 27 then screenEvents (centredColumn (expand s.cfg text)) st
    else scrollEvents (expand s.cfg text) st
  | _ => []

theorem bothCommand_writes (cmd : Byte) : ∀ e ∈ bothCommand cmd, ∃ p b, e = .lvl p b .ok := by
  intro e he
  rcases List.mem_append.mp he with h | h <;> exact frameEvents_writes _ _ _ e h

theorem screenEvents_writes (col : Nat → Byte) (st : Byte) : ∀ e ∈ screenEvents col st, ∃ p b, e = .lvl p b .ok := by
  intro e he
  rcases List.mem_append.mp he with h | h <;> exact frameEvents_writes _ _ _ e h

theorem sentEvents_lines (s : State) (i : Instr) : ∀ e ∈ sentEvents s i, SentLine e := by
  intro e he
  cases i <;> simp only [sentEvents, List.not_mem_nil] at he
  case render st text =>
    split at he
    · exact .inl (screenEvents_writes _ _ e he)
    · simp only [scrollEvents, List.mem_flatMap, List.mem_append, List.mem_singleton] at he
      obtain ⟨k, -, h | h⟩ := he
      · exact .inl (screenEvents_writes _ _ e h)
      · exact .inr h
  case writeFrame => exact .inl (screenEvents_writes _ _ e he)
  all_goals exact .inl (bothCommand_writes _ e he)

theorem setPowerOff_byte (b : Byte) : powerByte false b = 0x80 := rfl

theorem setPowerOn_byte (b : Byte) : powerByte true b = 0x88 ||| (b &&& 0x07) := rfl

/-- The law of a request that is not INIT or SHUTDOWN, meets its contract and comes in READY. -/
theorem exec_sends {i : Instr} {s : State} (hi : i.isHostRequest = true) (h1 : i ≠ .init) (h2 : i ≠ .shutdown)
    (hl : s.life = .ready) (hc : contractMet s.cfg i) :
    (s.allOk (callCount (sentEvents s i)) → exec i s = .next ((s.afterEvents (sentEvents s i)).responded .ok)) ∧
    ∀ k < callCount (sentEvents s i), s.firstErrAt k →
      exec i s = .next ((s.afterEvents (cutAtCall k (sentEvents s i))).responded .errLineWrite) := by
  cases i with
  | cmdDisplayMode u => cases hi
  | cmdDataMode u => cases hi
  | cmdAddrWrite u d => cases hi
  | cmdPowerOn u b => cases hi
  | cmdPowerOff u => cases hi
  | init => exact absurd rfl h1
  | shutdown => exact absurd rfl h2
  | setDisplayMode =>
    have h := runIn_sends hl (setDisplayMode_sends s).sends
    exact ⟨fun ha => congrArg _ (h.1 ha), fun k hk he => congrArg _ (h.2 k hk he)⟩
  | setDataMode =>
    have h := runIn_sends hl (setDataMode_sends s).sends
    exact ⟨fun ha => congrArg _ (h.1 ha), fun k hk he => congrArg _ (h.2 k hk he)⟩
  | setPowerOff b =>
    have h := runIn_sends hl (setPower_sends false b s).sends
    exact ⟨fun ha => congrArg _ (h.1 ha), fun k hk he => congrArg _ (h.2 k hk he)⟩
  | setPowerOn b =>
    have h := runIn_sends hl (setPower_sends true b s).sends
    exact ⟨fun ha => congrArg _ (h.1 ha), fun k hk he => congrArg _ (h.2 k hk he)⟩
  | writeFrame st bytes =>
    have hlen : ¬ cols < bytes.length := Nat.not_lt.mpr hc
    have h := runIn_sends hl (writeFrame_sends st s (col := plainColumn bytes) hc fun _ _ => rfl).sends
    simp only [exec, execWriteFrame, if_neg hlen]
    exact ⟨fun ha => congrArg _ (h.1 ha), fun k hk he => congrArg _ (h.2 k hk he)⟩
  | render st text =>
    have hlen : ¬ s.cfg.maxText < text.length := Nat.not_lt.mpr hc
    have h := runIn_sends hl (render_sends st text s)
    simp only [exec, execRender, if_neg hlen]
    exact ⟨fun ha => congrArg _ (h.1 ha), fun k hk he => congrArg _ (h.2 k hk he)⟩

/-! ## SHUTDOWN -/

/-- The answers and events of SHUTDOWN's release calls, after the line writes `w`. -/
def releaseEvents (s : State) (w : List Event) : List Event :=
  releaseCalls.mapIdx fun k c => c.event (s.answerAt (callCount w + k))

theorem releaseEvents_eq (s : State) (w : List Event) : releaseEvents s w = s.releasesAt (callCount w) := by
  simp [releaseEvents, State.releasesAt, releaseCalls_eq, releaseOrder, Call.event]

theorem releaseEvents_pins (s : State) (w : List Event) :
    (releaseEvents s w).map Event.releasedPin = releaseOrder.map some := by
  simp [releaseEvents, releaseCalls_eq, releaseOrder, Call.event, Event.releasedPin]

theorem callCount_relH (w : List Event) : callCount (w ++ [Event.relH]) = callCount w := by
  simp [Event.isCall, Event.answer?]

theorem blankFrame_sends (s : State) :
    SendsKeepingText (State.writeFrame (zeros cols) 0) s (screenEvents (fun _ => 0) 0) :=
  writeFrame_sends 0 s (by simp [cols]) fun c hc => by
    simp [List.getD_eq_getElem?_getD, cols, hc]

/-- SHUTDOWN from its two line-write phases on: whatever they did, every pin is released and the first error met is the
status (R147, R225). -/
theorem shutdown_end {s : State} {w : List Event} (hl : s.life = .ready)
    (hd : (((s.bothUnits (State.unitSetPower false 0)).1.blankPhase
      (s.bothUnits (State.unitSetPower false 0)).2).1).dropWork = (s.afterEvents w).dropWork) :
    exec .shutdown s =
      .next (({ s with life := .released }.afterEvents (w ++ Event.relH :: releaseEvents s w)).responded
        (reported (noteError (noteError (noteError none (s.bothUnits (State.unitSetPower false 0)).2 .errLineWrite)
          ((s.bothUnits (State.unitSetPower false 0)).1.blankPhase
            (s.bothUnits (State.unitSetPower false 0)).2).2 .errLineWrite)
          (if ∀ k : Nat, k < 6 → s.answerAt (callCount w + k) = Answer.ok then Answer.ok else Answer.err) .errRelease))) := by
  generalize hb : (s.bothUnits (State.unitSetPower false 0)).1.blankPhase
    (s.bothUnits (State.unitSetPower false 0)).2 = b at hd ⊢
  have hans : ∀ k, (b.1.afterEvents [.relH]).answerAt k = s.answerAt (callCount w + k) := fun k => by
    rw [answerAt_afterEvents, ← dropWork_answerAt, hd, dropWork_answerAt, answerAt_afterEvents]
    simp [Event.isCall, Event.answer?]
  have hst : ({ (b.1.afterEvents [.relH]).afterEvents (releaseEvents s w) with life := Life.released } : State).dropWork =
      ({ s with life := .released }.afterEvents (w ++ Event.relH :: releaseEvents s w)).dropWork := by
    rw [afterEvents_append, List.singleton_append, show w ++ Event.relH :: releaseEvents s w =
      w ++ (Event.relH :: releaseEvents s w) from rfl, ← afterEvents_append]
    have h2 := congrArg (fun t : State => { t.afterEvents (Event.relH :: releaseEvents s w) with life := Life.released }) hd
    exact h2
  simp only [exec, execShutdown, State.runIn, hl, if_true, State.shutdownOp, hb, releaseHandles_eq, performEvery_eq,
    hans, State.finish_eq_responded]
  exact congrArg Host.Outcome.next (responded_of_dropWork hst _)

/-- What SHUTDOWN's line writes can be, with the answers that decide it: `power` is the power-off to both units, `blank`
the blanking frame (R147). -/
inductive ShutdownWrites (s : State) (power blank : List Event) : List Event → Prop where
  | all (h : s.allOk (callCount power + callCount blank)) : ShutdownWrites s power blank (power ++ blank)
  | blankCut (k : Nat) (hk : k < callCount blank) (h : s.firstErrAt (callCount power + k)) :
      ShutdownWrites s power blank (power ++ cutAtCall k blank)
  | powerCut (k : Nat) (hk : k < callCount power) (h : s.firstErrAt k) (hf : s.cfg.shutdownBlankAfterPowerErr = false) :
      ShutdownWrites s power blank (cutAtCall k power)
  | powerCutBlank (k : Nat) (hk : k < callCount power) (h : s.firstErrAt k)
      (hf : s.cfg.shutdownBlankAfterPowerErr = true) (ha : (s.afterEvents (cutAtCall k power)).allOk (callCount blank)) :
      ShutdownWrites s power blank (cutAtCall k power ++ blank)
  | bothCut (k m : Nat) (hk : k < callCount power) (h : s.firstErrAt k)
      (hf : s.cfg.shutdownBlankAfterPowerErr = true) (hm : m < callCount blank)
      (ha : (s.afterEvents (cutAtCall k power)).firstErrAt m) :
      ShutdownWrites s power blank (cutAtCall k power ++ cutAtCall m blank)

/-- The blanking frame's events (R147). -/
abbrev blankEvents : List Event := screenEvents (fun _ => 0) 0

/-- An event of the list was answered `err`. -/
abbrev HasErr (w : List Event) : Prop := ∃ e ∈ w, e.answer? = some Answer.err

/-- The status of a SHUTDOWN whose line writes were `w`: the first error's (R147, R225). -/
def shutdownStatus (s : State) (w : List Event) : Status :=
  if HasErr w then .errLineWrite
  else if ∀ k : Nat, k < 6 → s.answerAt (callCount w + k) = Answer.ok then .ok else .errRelease

theorem not_hasErr_of_lines {w : List Event} (h : ∀ e ∈ w, SentLine e) : ¬ HasErr w := by
  rintro ⟨e, he, ha⟩
  rcases h e he with ⟨p, b, rfl⟩ | rfl <;> cases ha

theorem not_hasErr_of_writes {w : List Event} (h : ∀ e ∈ w, ∃ p b, e = .lvl p b .ok) : ¬ HasErr w :=
  not_hasErr_of_lines fun e he => .inl (h e he)

theorem hasErr_cut {es : List Event} {k : Nat} (hk : k < callCount es) : HasErr (cutAtCall k es) := by
  obtain ⟨p, e, q, -, he, -, hc⟩ := cutAtCall_eq hk
  exact ⟨e.failed, by simp [hc], Event.failed_answer he⟩

theorem isWrite_of_writes {es : List Event} (h : ∀ e ∈ es, ∃ p b, e = .lvl p b .ok) : ∀ e ∈ es, e.isWrite = true := by
  intro e he; obtain ⟨p, b, rfl⟩ := h e he; rfl

theorem isWrite_cut {es : List Event} (h : ∀ e ∈ es, e.isWrite = true) {k : Nat} (hk : k < callCount es) :
    ∀ e ∈ cutAtCall k es, e.isWrite = true := by
  obtain ⟨p, e, q, rfl, -, -, hc⟩ := cutAtCall_eq hk
  intro e' he'
  rw [hc, List.mem_append, List.mem_singleton] at he'
  rcases he' with h' | rfl
  · exact h e' (by simp [h'])
  · rw [Event.failed_isWrite]; exact h e (by simp)

theorem ShutdownWrites.isWrite {s : State} {w : List Event} (h : ShutdownWrites s (bothCommand 0x80) blankEvents w) : ∀ e ∈ w, e.isWrite = true := by
  have hp := isWrite_of_writes (bothCommand_writes 0x80)
  have hb := isWrite_of_writes (screenEvents_writes (fun _ => 0) 0)
  intro e he
  cases h with
  | all => exact (List.mem_append.mp he).elim (hp e) (hb e)
  | blankCut k hk _ => exact (List.mem_append.mp he).elim (hp e) (isWrite_cut hb hk e)
  | powerCut k hk _ _ => exact isWrite_cut hp hk e he
  | powerCutBlank k hk _ _ _ => exact (List.mem_append.mp he).elim (isWrite_cut hp hk e) (hb e)
  | bothCut k m hk _ _ hm _ => exact (List.mem_append.mp he).elim (isWrite_cut hp hk e) (isWrite_cut hb hm e)

/-- THE LAW OF SHUTDOWN in READY, whatever the answers (R147, R225). -/
theorem exec_shutdown {s : State} (hl : s.life = .ready) :
    ∃ w, ShutdownWrites s (bothCommand 0x80) blankEvents w ∧
      exec .shutdown s =
        .next (({ s with life := .released }.afterEvents (w ++ Event.relH :: releaseEvents s w)).responded
          (shutdownStatus s w)) := by
  have hpw := setPower_sends false 0 s
  rw [setPowerOff_byte] at hpw
  have hnP := not_hasErr_of_writes (bothCommand_writes 0x80)
  have hnB := not_hasErr_of_writes (screenEvents_writes (fun _ => 0) 0)
  have happ : ∀ a b : List Event, HasErr (a ++ b) ↔ HasErr a ∨ HasErr b := fun a b => by
    simp only [HasErr, List.mem_append, or_and_right, exists_or]
  rcases allOk_or_firstErr s (callCount (bothCommand 0x80)) with hA | ⟨k, hk, hE⟩
  · have hP := hpw.allOk hA
    have hbl : ∀ t, State.blankPhase .ok t = t.writeFrame (zeros cols) 0 := fun t => by simp [State.blankPhase]
    have hB := blankFrame_sends (s.afterEvents (bothCommand 0x80))
    rcases allOk_or_firstErr (s.afterEvents (bothCommand 0x80)) (callCount blankEvents) with hA' | ⟨m, hm, hE'⟩
    · obtain ⟨t, ht, hd, -⟩ := hB.allOk hA'
      rw [afterEvents_append] at hd
      refine ⟨_, .all (allOk_append hA hA'), ?_⟩
      rw [shutdown_end hl (by simp only [hP, hbl, ht]; exact hd)]
      simp only [hP, hbl, ht, noteError, shutdownStatus, happ, hnP, hnB, or_self, if_false]
      by_cases hz : ∀ k : Nat, k < 6 →
          s.answerAt (callCount (bothCommand 0x80 ++ screenEvents (fun _ => 0) 0) + k) = Answer.ok
      · simp only [if_pos hz]; rfl
      · simp only [if_neg hz]; rfl
    · obtain ⟨t, ht, hd, -⟩ := hB.firstErr m hm hE'
      rw [afterEvents_append] at hd
      refine ⟨_, .blankCut m hm (firstErrAt_append hA hE'), ?_⟩
      rw [shutdown_end hl (by simp only [hP, hbl, ht]; exact hd)]
      simp only [hP, hbl, ht, noteError, shutdownStatus, happ, hasErr_cut hm, or_true, if_true]
      rfl
  · have hP := hpw.firstErr k hk hE
    cases hf : s.cfg.shutdownBlankAfterPowerErr with
    | false =>
      have hbl : State.blankPhase .err (s.afterEvents (cutAtCall k (bothCommand 0x80))) =
          (s.afterEvents (cutAtCall k (bothCommand 0x80)), .ok) := by simp [State.blankPhase, hf]
      refine ⟨_, .powerCut k hk hE hf, ?_⟩
      rw [shutdown_end hl (w := cutAtCall k (bothCommand 0x80)) (by simp only [hP, hbl])]
      simp only [hP, hbl, noteError, shutdownStatus, hasErr_cut hk, if_true]
      rfl
    | true =>
      have hbl : State.blankPhase .err (s.afterEvents (cutAtCall k (bothCommand 0x80))) =
          (s.afterEvents (cutAtCall k (bothCommand 0x80))).writeFrame (zeros cols) 0 := by simp [State.blankPhase, hf]
      have hB := blankFrame_sends (s.afterEvents (cutAtCall k (bothCommand 0x80)))
      rcases allOk_or_firstErr (s.afterEvents (cutAtCall k (bothCommand 0x80))) (callCount blankEvents) with
        hA' | ⟨m, hm, hE'⟩
      · obtain ⟨t, ht, hd, -⟩ := hB.allOk hA'
        rw [afterEvents_append] at hd
        refine ⟨_, .powerCutBlank k hk hE hf hA', ?_⟩
        rw [shutdown_end hl (by simp only [hP, hbl, ht]; exact hd)]
        simp only [hP, hbl, ht, noteError, shutdownStatus, happ, hasErr_cut hk, true_or, if_true]
        rfl
      · obtain ⟨t, ht, hd, -⟩ := hB.firstErr m hm hE'
        rw [afterEvents_append] at hd
        refine ⟨_, .bothCut k m hk hE hf hm hE', ?_⟩
        rw [shutdown_end hl (by simp only [hP, hbl, ht]; exact hd)]
        simp only [hP, hbl, ht, noteError, shutdownStatus, happ, hasErr_cut hk, true_or, if_true]
        rfl

/-! ## INIT -/

/-- THE LAW OF INIT in UNCONFIGURED (R141). -/
theorem exec_init {s : State} (hl : s.life = .unconfigured) :
    (s.allOk 12 → exec .init s = .next (({ s with life := .ready }.afterEvents initEvents).responded .ok)) ∧
    ∀ k < 12, s.firstErrAt k →
      exec .init s =
        .next (({ s with life := .initFailed }.afterEvents (cutAtCall k initEvents)).responded .errPinConfig) := by
  constructor
  · intro ha
    simp only [exec, execInit, State.runIn, hl, if_true, State.initOp, (configure_sends s).allOk ha]
    rfl
  · intro k hk he
    simp only [exec, execInit, State.runIn, hl, if_true, State.initOp, (configure_sends s).firstErr k hk he]
    rfl

/-! ## All host requests -/

/-- What a host request did: its events, the life value after it, and its status. -/
inductive Requested (i : Instr) (s : State) : List Event → Life → Status → Prop where
  /-- It was refused before any event (R73 checks 8 to 10). -/
  | contract (h : ¬ contractMet s.cfg i) : Requested i s [] s.life .errContract
  | wrongLife (hc : contractMet s.cfg i) (h : s.life ≠ neededLife i) : Requested i s [] s.life .errState
  /-- INIT (R141). -/
  | configured (hi : i = .init) (hl : s.life = .unconfigured) (h : s.allOk 12) : Requested i s initEvents .ready .ok
  | configFailed (hi : i = .init) (hl : s.life = .unconfigured) (k : Nat) (hk : k < 12) (h : s.firstErrAt k) :
      Requested i s (cutAtCall k initEvents) .initFailed .errPinConfig
  /-- A request that sends line writes (R142 to R146, R190). -/
  | sent (h1 : i ≠ .init) (h2 : i ≠ .shutdown) (hc : contractMet s.cfg i) (hl : s.life = .ready)
      (h : s.allOk (callCount (sentEvents s i))) :
      Requested i s (sentEvents s i) .ready .ok
  | cut (h1 : i ≠ .init) (h2 : i ≠ .shutdown) (hc : contractMet s.cfg i) (hl : s.life = .ready) (k : Nat)
      (hk : k < callCount (sentEvents s i)) (h : s.firstErrAt k) :
      Requested i s (cutAtCall k (sentEvents s i)) .ready .errLineWrite
  /-- SHUTDOWN (R147). -/
  | shutDown (hi : i = .shutdown) (hl : s.life = .ready) (w : List Event) (hw : ShutdownWrites s (bothCommand 0x80) blankEvents w) :
      Requested i s (w ++ Event.relH :: releaseEvents s w) .released (shutdownStatus s w)

theorem exec_wrongLife {i : Instr} {s : State} (hi : i.isHostRequest = true) (hc : contractMet s.cfg i)
    (h : s.life ≠ neededLife i) : exec i s = .next (s.responded .errState) := by
  cases i with
  | cmdDisplayMode u => cases hi
  | cmdDataMode u => cases hi
  | cmdAddrWrite u d => cases hi
  | cmdPowerOn u b => cases hi
  | cmdPowerOff u => cases hi
  | writeFrame st bytes =>
    simp only [exec, execWriteFrame, if_neg (show ¬ cols < bytes.length from Nat.not_lt.mpr hc)]
    exact congrArg _ (runIn_wrong h)
  | render st text =>
    simp only [exec, execRender, if_neg (show ¬ s.cfg.maxText < text.length from Nat.not_lt.mpr hc)]
    exact congrArg _ (runIn_wrong h)
  | init => exact congrArg _ (runIn_wrong h)
  | setDisplayMode => exact congrArg _ (runIn_wrong h)
  | setDataMode => exact congrArg _ (runIn_wrong h)
  | setPowerOff b => exact congrArg _ (runIn_wrong h)
  | setPowerOn b => exact congrArg _ (runIn_wrong h)
  | shutdown => exact congrArg _ (runIn_wrong h)

theorem exec_contract {i : Instr} {s : State} (h : ¬ contractMet s.cfg i) :
    exec i s = .next (s.responded .errContract) := by
  cases i with
  | writeFrame st bytes =>
    have : cols < bytes.length := Nat.not_le.mp h
    simp only [exec, execWriteFrame, if_pos this, State.finish_eq_responded]
  | render st text =>
    have : s.cfg.maxText < text.length := Nat.not_le.mp h
    simp only [exec, execRender, if_pos this, State.finish_eq_responded]
  | _ => exact absurd trivial h

theorem State.with_same_life {s : State} {l : Life} (h : s.life = l) : { s with life := l } = s := by
  subst h; rfl

/-- EVERYTHING A HOST REQUEST CAN DO: it always answers a next state, and one of the cases of `Requested` holds. -/
theorem exec_host {i : Instr} (hi : i.isHostRequest = true) (s : State) :
    ∃ w l st, Requested i s w l st ∧ exec i s = .next (({ s with life := l }.afterEvents w).responded st) := by
  by_cases hc : contractMet s.cfg i
  · by_cases hl : s.life = neededLife i
    · by_cases h1 : i = .init
      · subst h1
        have h := exec_init hl
        rcases allOk_or_firstErr s 12 with ha | ⟨k, hk, he⟩
        · exact ⟨_, _, _, .configured rfl hl ha, h.1 ha⟩
        · exact ⟨_, _, _, .configFailed rfl hl k hk he, h.2 k hk he⟩
      · have hr : s.life = .ready := by
          rw [hl]; cases i <;> first | rfl | exact absurd rfl h1
        by_cases h2 : i = .shutdown
        · subst h2
          obtain ⟨w, hw, he⟩ := exec_shutdown hr
          exact ⟨_, _, _, .shutDown rfl hr w hw, he⟩
        · have h := exec_sends hi h1 h2 hr hc
          rcases allOk_or_firstErr s (callCount (sentEvents s i)) with ha | ⟨k, hk, he⟩
          · exact ⟨_, _, _, .sent h1 h2 hc hr ha, by rw [State.with_same_life hr]; exact h.1 ha⟩
          · exact ⟨_, _, _, .cut h1 h2 hc hr k hk he, by rw [State.with_same_life hr]; exact h.2 k hk he⟩
    · exact ⟨_, _, _, .wrongLife hc hl, by simpa using exec_wrongLife hi hc hl⟩
  · exact ⟨_, _, _, .contract hc, by simpa using exec_contract hc⟩

/-! ## All wire commands -/

/-- The events of a wire command whose calls all succeed. -/
def unitEvents (s : State) : Instr → List Event
  | .cmdDisplayMode u => frameEvents (strobe u) s.cfg.displayModeCmd []
  | .cmdDataMode u => frameEvents (strobe u) s.cfg.dataModeCmd []
  | .cmdAddrWrite u d => frameEvents (strobe u) 0xC0 d
  | .cmdPowerOn u b => frameEvents (strobe u) (0b10001#5 ++ b) []
  | .cmdPowerOff u => frameEvents (strobe u) 0x80 []
  | _ => []

theorem powerOn_byte : ∀ b : BitVec 3, powerByte true (b.setWidth 8) = 0b10001#5 ++ b := by decide

/-- EVERYTHING A WIRE COMMAND CAN DO (R104, R120). -/
theorem exec_unit {i : Instr} (hi : i.isHostRequest = false) (s : State) :
    (s.allOk (callCount (unitEvents s i)) →
      exec i s = .next { s.afterEvents (unitEvents s i) with unitResult := some .ok }) ∧
    ∀ k < callCount (unitEvents s i), s.firstErrAt k →
      exec i s = .next { s.afterEvents (cutAtCall k (unitEvents s i)) with unitResult := some .err } := by
  have key : ∀ {op : State → State × Answer} {es : List Event}, SendsAt op s es →
      (s.allOk (callCount es) → State.unitReturn (op s) = { s.afterEvents es with unitResult := some .ok }) ∧
      ∀ k < callCount es, s.firstErrAt k →
        State.unitReturn (op s) = { s.afterEvents (cutAtCall k es) with unitResult := some .err } :=
    fun h => ⟨fun ha => by rw [h.allOk ha]; rfl, fun k hk he => by rw [h.firstErr k hk he]; rfl⟩
  cases i with
  | cmdDisplayMode u =>
    have h := key (unitSetDisplayMode_sends u s)
    exact ⟨fun ha => congrArg _ (h.1 ha), fun k hk he => congrArg _ (h.2 k hk he)⟩
  | cmdDataMode u =>
    have h := key (unitSetDataMode_sends u s)
    exact ⟨fun ha => congrArg _ (h.1 ha), fun k hk he => congrArg _ (h.2 k hk he)⟩
  | cmdAddrWrite u d =>
    have h := key (unitWriteColumns_sends u d s)
    exact ⟨fun ha => congrArg _ (h.1 ha), fun k hk he => congrArg _ (h.2 k hk he)⟩
  | cmdPowerOn u b =>
    have h := key (unitSetPower_sends true (b.setWidth 8) u s)
    rw [powerOn_byte] at h
    exact ⟨fun ha => congrArg _ (h.1 ha), fun k hk he => congrArg _ (h.2 k hk he)⟩
  | cmdPowerOff u =>
    have h := key (unitSetPower_sends false 0 u s)
    exact ⟨fun ha => congrArg _ (h.1 ha), fun k hk he => congrArg _ (h.2 k hk he)⟩
  | init => cases hi
  | setDisplayMode => cases hi
  | setDataMode => cases hi
  | setPowerOff b => cases hi
  | setPowerOn b => cases hi
  | writeFrame st bytes => cases hi
  | render st text => cases hi
  | shutdown => cases hi

end Sys2Proof.Machine
end

