-- ==== Sys2Proof/Laws/Glyphs.lean ====
section
/-! SUPPORT. What a lookup in a list of key and value pairs answers (R170, R172). -/

namespace Sys2Proof.Machine

/-- What a lookup finds stands in the list. -/
theorem valueAt_mem {α : Type} {k : Nat} {v : α} : ∀ {l : List (Nat × α)}, valueAt k l = some v → (k, v) ∈ l
  | (k', v') :: l, h => by
    rw [valueAt] at h
    split at h
    · cases h; subst k'; simp
    · exact List.mem_cons_of_mem _ (valueAt_mem h)

/-- A lookup of a key of the list finds a value. -/
theorem valueAt_some {α : Type} {k : Nat} : ∀ {l : List (Nat × α)}, k ∈ l.map Prod.fst → ∃ v, valueAt k l = some v
  | (k', v') :: l, h => by
    rw [valueAt]
    split
    · exact ⟨_, rfl⟩
    · rename_i hne
      rw [List.map_cons, List.mem_cons] at h
      exact valueAt_some (h.resolve_left fun e => hne e.symm)

/-- A lookup of another key finds nothing. -/
theorem valueAt_none {α : Type} {k : Nat} : ∀ {l : List (Nat × α)}, k ∉ l.map Prod.fst → valueAt k l = none
  | [], _ => rfl
  | (k', v') :: l, h => by
    rw [List.map_cons, List.mem_cons, not_or] at h
    rw [valueAt, if_neg (fun e => h.1 e.symm), valueAt_none h.2]

/-- In a list with rising keys, a lookup finds every pair. -/
theorem valueAt_of_mem {α : Type} {k : Nat} {v : α} :
    ∀ {l : List (Nat × α)}, (l.map Prod.fst).Pairwise (· < ·) → (k, v) ∈ l → valueAt k l = some v
  | (k', v') :: l, hs, h => by
    rw [List.map_cons, List.pairwise_cons] at hs
    rcases List.mem_cons.mp h with h | h
    · cases h; simp [valueAt]
    · have := hs.1 k (List.mem_map.mpr ⟨_, h, rfl⟩)
      rw [valueAt, if_neg (by omega), valueAt_of_mem hs.2 h]

end Sys2Proof.Machine
end

