-- ==== Sys2Proof/Laws/PerInstr.lean ====
section
/-! SUPPORT. A fact about every instruction, one lemma per constructor: how many bytes its encoding has (R61, R71). -/

namespace Sys2Proof.Laws

/-- The number of bytes of an instruction: a wire command is its command byte and its data bytes (R61); a host request
is four header bytes and its payload, one byte a column or four bytes a scalar (R71). -/
def EncodedLength.bytes : Instr → Nat
  | .cmdDisplayMode _ => 1
  | .cmdDataMode _ => 1
  | .cmdAddrWrite _ d => 1 + d.length
  | .cmdPowerOn _ _ => 1
  | .cmdPowerOff _ => 1
  | .init => 4
  | .setDisplayMode => 4
  | .setDataMode => 4
  | .setPowerOff _ => 4
  | .setPowerOn _ => 4
  | .writeFrame _ columns => 4 + columns.length
  | .render _ text => 4 + 4 * text.length
  | .shutdown => 4

/-- The encoding of `i` has the length the spec gives it, in every configuration. -/
def EncodedLength.Statement (i : Instr) : Prop := ∀ c : Config, (encode c i).length = EncodedLength.bytes i

theorem EncodedLength.cmdDisplayMode (u : UnitId) : EncodedLength.Statement (.cmdDisplayMode u) := fun _ => rfl

theorem EncodedLength.cmdDataMode (u : UnitId) : EncodedLength.Statement (.cmdDataMode u) := fun _ => rfl

theorem EncodedLength.cmdAddrWrite (u : UnitId) (d : List Byte) : EncodedLength.Statement (.cmdAddrWrite u d) :=
  fun _ => Nat.add_comm _ _

theorem EncodedLength.cmdPowerOn (u : UnitId) (b : BitVec 3) : EncodedLength.Statement (.cmdPowerOn u b) := fun _ => rfl

theorem EncodedLength.cmdPowerOff (u : UnitId) : EncodedLength.Statement (.cmdPowerOff u) := fun _ => rfl

theorem EncodedLength.init : EncodedLength.Statement .init := fun _ => rfl

theorem EncodedLength.setDisplayMode : EncodedLength.Statement .setDisplayMode := fun _ => rfl

theorem EncodedLength.setDataMode : EncodedLength.Statement .setDataMode := fun _ => rfl

theorem EncodedLength.setPowerOff (b : Byte) : EncodedLength.Statement (.setPowerOff b) := fun _ => rfl

theorem EncodedLength.setPowerOn (b : Byte) : EncodedLength.Statement (.setPowerOn b) := fun _ => rfl

theorem EncodedLength.writeFrame (st : Byte) (columns : List Byte) :
    EncodedLength.Statement (.writeFrame st columns) :=
  fun _ => by simp [encode, headerBytes, EncodedLength.bytes]; omega

theorem EncodedLength.render (st : Byte) (text : List Nat) : EncodedLength.Statement (.render st text) := fun _ => by
  have : (text.flatMap scalarBytes).length = 4 * text.length := by
    induction text with
    | nil => rfl
    | cons c text ih => simp [scalarBytes, ih]; omega
  simp [encode, headerBytes, EncodedLength.bytes, this]; omega

theorem EncodedLength.shutdown : EncodedLength.Statement .shutdown := fun _ => rfl

end Sys2Proof.Laws
end

