-- ==== Sys2Proof/Laws/Step.lean ====
section
/-! SUPPORT. What a step can do, said once (`step_cases`), and what a next state of `exec` is, for a host request
(`host_next`) and for a wire command (`unit_next`). Claims about every step go through these. -/

namespace Sys2Proof.Machine

/-! ## What the decoders give -/

/-- A request decodes to a host request only (R72). -/
theorem decodeRequest_host {bytes i} (h : decodeRequest bytes = .instr i) : i.isHostRequest = true := by
  unfold decodeRequest at h
  split at h
  · split at h
    · cases h
    · rename_i b0 b1 b2 b3 p _
      unfold Header.operation at h
      split at h <;> first | (cases h; done) | (injection h with h; subst h; first | rfl | (split <;> rfl))
  · cases h

/-- A wire frame on `u` decodes to a wire command of `u` only (R61). -/
theorem decodeWire_unit {c u bytes i} (h : decodeWire c u bytes = .instr i) :
    commandUnit i = some u ∧ i.isHostRequest = false := by
  unfold decodeWire at h
  split at h
  · cases h
  · rename_i cmd d
    split at h
    · cases h; exact ⟨rfl, rfl⟩
    · repeat' split at h
      all_goals first
        | (cases h)
        | (cases d <;> simp only [commandOnly] at h <;> first | (cases h; exact ⟨rfl, rfl⟩) | cases h)

/-! ## Next states of `exec` -/

/-- A next state of a host request is one of the cases of `Requested`, with its response (R28). -/
theorem host_next {i s t} (hi : i.isHostRequest = true) (h : exec i s = .next t) :
    ∃ w l st, Requested i s w l st ∧ t = ({ s with life := l }.afterEvents w).responded st := by
  obtain ⟨w, l, st, hr, he⟩ := exec_host hi s
  rw [h] at he; cases he
  exact ⟨w, l, st, hr, rfl⟩

/-- A next state of a wire command: its frame, all of it or up to the first `err` (R104, R120). -/
theorem unit_next {i s t} (hi : i.isHostRequest = false) (h : exec i s = .next t) :
    ∃ w r, t = { s.afterEvents w with unitResult := some r } ∧
      ((w = unitEvents s i ∧ r = .ok) ∨
        ∃ k < callCount (unitEvents s i), w = cutAtCall k (unitEvents s i) ∧ r = .err) := by
  have hu := exec_unit hi s
  rcases allOk_or_firstErr s (callCount (unitEvents s i)) with ha | ⟨k, hk, he⟩
  · rw [hu.1 ha] at h; cases h; exact ⟨_, _, rfl, .inl ⟨rfl, rfl⟩⟩
  · rw [hu.2 k hk he] at h; cases h; exact ⟨_, _, rfl, .inr ⟨k, hk, rfl, rfl⟩⟩

theorem unitEvents_writes (s i) : ∀ e ∈ unitEvents s i, ∃ p b, e = .lvl p b .ok := by
  cases i <;> simp only [unitEvents] <;> first | exact frameEvents_writes _ _ _ | simp

/-! ## What the events of an operation are -/

/-- What holds of every event, and of an event answered `err` instead, holds of the cut events. -/
theorem mem_cut {P : Event → Prop} {es : List Event} (h : ∀ e ∈ es, P e) {k} (hk : k < callCount es)
    (hP : ∀ e, P e → P e.failed) : ∀ e ∈ cutAtCall k es, P e := by
  obtain ⟨p, e, q, rfl, he, -, hc⟩ := cutAtCall_eq hk
  intro e' he'
  rw [hc, List.mem_append, List.mem_singleton] at he'
  rcases he' with h' | rfl
  · exact h e' (by simp [h'])
  · exact hP _ (h e (by simp))

theorem noResp_cut {es : List Event} (h : ∀ e ∈ es, e.isResponse = false) {k} (hk : k < callCount es) :
    ∀ e ∈ cutAtCall k es, e.isResponse = false := by
  obtain ⟨p, e, q, rfl, he, -, hc⟩ := cutAtCall_eq hk
  intro e' he'
  rw [hc, List.mem_append, List.mem_singleton] at he'
  rcases he' with h' | rfl
  · exact h e' (by simp [h'])
  · cases e <;> first | rfl | cases he

theorem noResp_lines {w : List Event} (h : ∀ e ∈ w, SentLine e) : ∀ e ∈ w, e.isResponse = false := by
  intro e he; rcases h e he with ⟨p, b, rfl⟩ | rfl <;> rfl

theorem noResp_writes {w : List Event} (h : ∀ e ∈ w, e.isWrite = true) : ∀ e ∈ w, e.isResponse = false := by
  intro e he; have := h e he; cases e <;> first | rfl | cases this

theorem noResp_release (s : State) (w) : ∀ e ∈ releaseEvents s w, e.isResponse = false := by
  intro e he
  simp only [releaseEvents, releaseCalls_eq, releaseOrder, List.mapIdx_cons, List.map_cons, List.map_nil,
    List.mapIdx_nil, List.mem_cons, List.not_mem_nil, or_false] at he
  rcases he with h | h | h | h | h | h <;> rw [h] <;> rfl

/-- No event of an operation is a response. -/
theorem Requested.noResp {i s w l st} (h : Requested i s w l st) : ∀ e ∈ w, e.isResponse = false := by
  cases h with
  | contract => simp
  | wrongLife => simp
  | configured => decide
  | configFailed hi hl k hk => exact noResp_cut (by decide) hk
  | sent => exact noResp_lines (sentEvents_lines s i)
  | cut h1 h2 hc hl k hk => exact noResp_cut (noResp_lines (sentEvents_lines s i)) hk
  | shutDown hi hl w hw =>
    intro e he
    rcases List.mem_append.mp he with h | h
    · exact noResp_writes hw.isWrite e h
    · rcases List.mem_cons.mp h with rfl | h
      · rfl
      · exact noResp_release s w e h

/-! ## Views of the trace -/

theorem lastResponse_append (a b : List Event) :
    lastResponse (a ++ b) = (lastResponse b).or (lastResponse a) := by
  induction a with
  | nil => cases h : lastResponse b <;> simp [lastResponse, h]
  | cons e a ih =>
    simp only [List.cons_append, lastResponse, ih]
    cases lastResponse b <;> cases lastResponse a <;> cases e <;> rfl

theorem lastResponse_none {w : List Event} (h : ∀ e ∈ w, e.isResponse = false) : lastResponse w = none := by
  induction w with
  | nil => rfl
  | cons e w ih =>
    have := h e (by simp)
    simp only [lastResponse, ih fun e he => h e (by simp [he])]
    cases e <;> first | rfl | cases this

theorem countResp_zero {w : List Event} (h : ∀ e ∈ w, e.isResponse = false) : w.countP Event.isResponse = 0 := by
  rw [List.countP_eq_zero]; intro e he; simp [h e he]

theorem levelsOf_append (a b : List Event) : levelsOf (a ++ b) = b.foldl Levels.after (levelsOf a) := by
  simp [levelsOf, List.foldl_append]

theorem lineCalls_append (a b) : lineCalls (a ++ b) = lineCalls a ++ lineCalls b := List.filter_append ..

theorem lineCalls_writes {w : List Event} (h : ∀ e ∈ w, e.isWrite = true) : lineCalls w = w := by
  rw [lineCalls, List.filter_eq_self]; intro e he; have := h e he; cases e <;> first | rfl | cases this

theorem release_calls (s : State) (w) : lineCalls (releaseEvents s w) = releaseEvents s w := by
  rw [lineCalls, List.filter_eq_self]
  intro e he
  simp only [releaseEvents, releaseCalls_eq, releaseOrder, List.mapIdx_cons, List.map_cons, List.map_nil,
    List.mapIdx_nil, List.mem_cons, List.not_mem_nil, or_false] at he
  rcases he with h | h | h | h | h | h <;> rw [h] <;> rfl

theorem lines_filter {w : List Event} (h : ∀ e ∈ w, SentLine e) : ∀ e ∈ lineCalls w, e.isWrite = true := by
  intro e he
  rw [lineCalls, List.mem_filter] at he
  rcases h e he.1 with ⟨p, b, rfl⟩ | rfl
  · rfl
  · exact absurd he.2 (by decide)

/-! ## Steps -/

/-- EVERYTHING A STEP THAT ANSWERS A NEXT STATE CAN DO (R22, R26, R73, log 5). -/
inductive StepCase (s t : State) : Prop
  /-- A called-for unit operation is performed. -/
  | unit (u bytes i) (hc : s.unitCall = some (u, bytes)) (hd : decodeWire s.cfg u bytes = .instr i)
      (h : exec i { s with unitCall := none } = .next t)
  /-- The request in hand is performed. -/
  | request (bytes i) (hc : s.unitCall = none) (hb : s.busy = true) (hp : s.program[s.pos]? = some bytes)
      (hd : decodeRequest bytes = .instr i) (h : exec i s = .next t)
  /-- The request in hand is refused. -/
  | illegal (hc : s.unitCall = none) (hb : s.busy = true) (h : t = s.responded .errIllegal)
  /-- The next request is accepted. -/
  | accept (bytes) (hc : s.unitCall = none) (hb : s.busy = false) (hp : s.program[s.pos]? = some bytes)
      (h : t = s.accept)
  /-- The block waits. -/
  | idle (hc : s.unitCall = none) (hb : s.busy = false) (h : t = s)

theorem step_cases {s t} (h : step s = .next t) : StepCase s t := by
  unfold step State.fetch at h
  rcases hc : s.unitCall with _ | ⟨u, bytes⟩
  · simp only [hc, State.requestInHand] at h
    rcases hb : s.busy with _ | _ <;> rcases hp : s.program[s.pos]? with _ | bytes <;> simp only [hb, hp] at h
    · cases h; exact .idle hc hb rfl
    · cases h; exact .accept bytes hc hb hp rfl
    · cases h
    · rcases hd : decodeRequest bytes with i | why <;> simp only [hd] at h
      · exact .request bytes i hc hb hp hd h
      · cases h; exact .illegal hc hb rfl
  · simp only [hc] at h
    rcases hd : decodeWire s.cfg u bytes with i | why <;> simp only [hd] at h
    · exact .unit u bytes i hc hd h
    · cases h

end Sys2Proof.Machine
end

