-- ==== Sys2Proof/Tests/Slice0.lean ====
section
/-! SUPPORT. The model's own tests: what WellFormed refuses, the decoding of words written out from the spec's encoding
tables, the test vectors of 95_test_vectors.md, and for every obligation with hypotheses a concrete state and operands that
meet them together (`witness_<obligation>`). Expected values are the spec's, named in each test's comment. -/

namespace Sys2Proof.Tests

open Sys2Proof Sys2Proof.Machine

/-! ## The fixture of 95_test_vectors.md, made a legal table (R171) by the entry 0x1E at every other required key -/

/-- The fixture's entry at a required key. -/
def fixtureGlyph (k : Nat) : List Byte :=
  if 0x30 ≤ k ∧ k ≤ 0x39 then [BitVec.ofNat 8 (0x10 + (k - 0x30))]
  else if k = 0x48 then [0x11] else if k = 0x45 then [0x12] else if k = 0x4C then [0x13] else if k = 0x4F then [0x14]
  else if k = 0x49 then [0x1F] else if k = 0x41 then [0x01] else if k = 0x42 then [0x02, 0x03]
  else if k = 0x3A then [0xE4] else [0x1E]

/-- The fixture configuration. -/
def fixture : Config :=
  { Config.someLegal with
    displayModeCmd := 0x35
    dataModeCmd := 0x4A
    charLut := Config.someLegal.charLut.map fun e => (e.1, fixtureGlyph e.1)
    maxText := 40
    maxGlyph := 2 }

theorem fixture_legal : fixture.wf := by decide

/-- A block in READY with the fixture configuration. -/
def ready : State := { State.reset with cfg := fixture, life := .ready }

/-- A block before INIT with the fixture configuration. -/
def fresh : State := { State.reset with cfg := fixture }

/-- `s`, whose next `n` calls are answered `ok`. -/
def answering (n : Nat) (s : State) : State := { s with answers := List.replicate n .ok }

/-- `s`, whose calls are answered `ok` up to call `k`, which is answered `err`. -/
def failingAt (k : Nat) (s : State) : State := { s with answers := List.replicate k .ok ++ [.err] }

/-- `s`, having accepted the request `bytes`. -/
def holding (bytes : List Byte) (s : State) : State := { s with busy := true, program := [bytes] }

theorem answering_ok (n : Nat) (s : State) : (answering n s).allOk n := allOk_of_answers rfl

theorem failingAt_err (k : Nat) (s : State) : (failingAt k s).firstErrAt k := firstErrAt_of_answers rfl

/-- The state an outcome goes on in. -/
def nextState : Host.Outcome State Fault Refusal → Option State
  | .next t => some t
  | _ => none

/-- The bits a list of events puts on the data line, in slot order. -/
def slots (es : List Event) : List Nat :=
  es.filterMap fun e => match e with
    | .lvl .dio b _ => some b.toNat
    | _ => none

/-- What a step leaves to look at: its slots, the number of events, the status, the life value. -/
def look (o : Host.Outcome State Fault Refusal) : Option (List Nat × Nat × Option Status × Life) :=
  (nextState o).map fun t => (slots t.trace, t.trace.length, t.resp, t.life)

/-! ## WellFormed: an ill-formed term for each check -/

theorem test_wf_refuses_frame_over_16_bit_count : (Instr.writeFrame 0 (zeros 65536)).wf = false := by
  simp [Instr.wf, maxCount]

theorem test_wf_refuses_text_over_16_bit_count : (Instr.render 0 (List.replicate 65536 0x41)).wf = false := by
  rw [Instr.wf, List.length_replicate]; rfl

theorem test_wf_refuses_first_surrogate : (Instr.render 0 [0x41, 0xD800]).wf = false := by decide

theorem test_wf_refuses_last_surrogate : (Instr.render 0 [0xDFFF]).wf = false := by decide

theorem test_wf_refuses_scalar_above_range : (Instr.render 0 [0x110000]).wf = false := by decide

theorem test_wf_takes_edges_of_scalar_range : (Instr.render 0 [0, 0xD7FF, 0xE000, 0x10FFFF]).wf = true := by decide

/-! ## Decode: words written out from R64 to R66 and from the header of R70 -/

/-- 0b1100_0000 (R64), then two data bytes. -/
theorem test_decode_cmdAddrWrite :
    decodeWire fixture .right [0b11000000, 0x1F, 0x01] = .instr (.cmdAddrWrite .right [0x1F, 0x01]) := by decide

/-- Bit 7 = 1, bits 6:4 = 000, bit 3 = 1, bits 2:0 = brightness (R65). -/
theorem test_decode_cmdPowerOn : decodeWire fixture .left [0b10001011] = .instr (.cmdPowerOn .left 3) := by decide

/-- 0b1000_0000 (R66). -/
theorem test_decode_cmdPowerOff : decodeWire fixture .right [0b10000000] = .instr (.cmdPowerOff .right) := by decide

/-- The instance's `DISPLAY_MODE_CMD`, 0x35 in the fixture (R62). -/
theorem test_decode_cmdDisplayMode : decodeWire fixture .left [0b00110101] = .instr (.cmdDisplayMode .left) := by decide

/-- The instance's `DATA_MODE_CMD`, 0x4A in the fixture (R63). -/
theorem test_decode_cmdDataMode : decodeWire fixture .left [0b01001010] = .instr (.cmdDataMode .left) := by decide

/-- OP = 0001, ON = 0, RSV = 000, ARG = 0, N = 0 (R70, R72). -/
theorem test_decode_init : decodeRequest [0b00000001, 0, 0, 0] = .instr .init := by decide

theorem test_decode_setDisplayMode : decodeRequest [0b00000010, 0, 0, 0] = .instr .setDisplayMode := by decide

theorem test_decode_setDataMode : decodeRequest [0b00000011, 0, 0, 0] = .instr .setDataMode := by decide

/-- OP = 0100, ON = 0, ARG = brightness (R70, R72). -/
theorem test_decode_setPowerOff : decodeRequest [0b00000100, 0b00000101, 0, 0] = .instr (.setPowerOff 5) := by decide

/-- OP = 0100, ON = 1, ARG = brightness (R70, R72). -/
theorem test_decode_setPowerOn : decodeRequest [0b00010100, 0b11111111, 0, 0] = .instr (.setPowerOn 255) := by decide

/-- OP = 0101, ARG = status, N = 2, two columns (R71). -/
theorem test_decode_writeFrame :
    decodeRequest [0b00000101, 0x0F, 0b00000010, 0, 0x1F, 0x01] = .instr (.writeFrame 0x0F [0x1F, 0x01]) := by decide

/-- OP = 0110, ARG = status, N = 1, the scalar 0x2103 little-endian (R71). -/
theorem test_decode_render :
    decodeRequest [0b00000110, 0x01, 0b00000001, 0, 0x03, 0x21, 0, 0] = .instr (.render 0x01 [0x2103]) := by decide

theorem test_decode_shutdown : decodeRequest [0b00000111, 0, 0, 0] = .instr .shutdown := by decide

/-- The count's high byte is byte 3 (R70): N = 0x0100 asks for 256 columns. -/
theorem test_decode_count_is_little_endian : (readHeader 0b00000101 0 0x00 0x01).requestLength = 260 := by decide

/-- V-REQ-1 to V-REQ-8 and V-REQ-10, with the check of R73 that fails. -/
theorem test_decode_refuses_by_name :
    [[], [0x00, 0, 0, 0], [0x08, 0, 0, 0], [0x24, 0, 0, 0], [0x11, 0, 0, 0], [0x02, 0x01, 0, 0], [0x07, 0, 0x01, 0],
      [0x06, 0, 0x01, 0, 0x00, 0xD8, 0, 0], [0x06, 0, 0x01, 0, 0, 0, 0x11, 0], [0x05, 0, 0x02, 0, 0x1F]].map decodeRequest =
    [.illegal .tooShort, .illegal .reservedOp, .illegal .reservedOp, .illegal .reservedBits, .illegal .onFlag,
      .illegal .argNotZero, .illegal .countNotZero, .illegal .badScalar, .illegal .badScalar, .illegal .badLength] := by
  decide

/-- No command byte, no command of R61, and data after a command without data (R61, R69). -/
theorem test_decode_wire_refuses_by_name :
    [[], [0x00], [0x80, 0x00]].map (decodeWire fixture .left) =
      [.illegal .noCommand, .illegal .notACommand, .illegal .dataAfterCommand] := by decide

/-- Words of spec/opcode_table.json, as the table numbers their bits. -/
theorem test_table_words_decode :
    [(8, 0xC0), (8, 0x8D), (8, 0x80), (32, 0x00000001), (32, 0x00000002), (32, 0x00000003), (32, 0x00000504),
      (32, 0x00000514), (8, 0x05), (32, 0x00000006), (32, 0x00000007)].map (fun w => decodeTableWord w.1 w.2) =
    [some (.cmdAddrWrite .left []), some (.cmdPowerOn .left 5), some (.cmdPowerOff .left), some .init,
      some .setDisplayMode, some .setDataMode, some (.setPowerOff 5), some (.setPowerOn 5), some (.writeFrame 0 []),
      some (.render 0 []), some .shutdown] := by decide

/-- A step from reset runs the placed word, here INIT. -/
theorem test_fetch_word_runs :
    step (State.reset.withFetchWord 32 0x00000001) = exec .init (State.reset.withFetchWord 32 0x00000001) := rfl

/-! ## The Protocol Encoder (95_test_vectors.md §2.1) -/

/-- V-ENC-1. -/
theorem test_emitBit : emitBit true = [.setLevel .clk false, .setLevel .dio true, .setLevel .clk true] := rfl

/-- V-ENC-2 to V-ENC-5. -/
theorem test_lowBits_order :
    lowBits 0xC0 8 = [false, false, false, false, false, false, true, true] ∧
    lowBits 0x80 8 = [false, false, false, false, false, false, false, true] ∧
    lowBits 0xFF 5 = List.replicate 5 true ∧ lowBits 0x1F 5 = List.replicate 5 true ∧
    lowBits 0xE0 5 = List.replicate 5 false := by decide

/-- V-ENC-7. -/
theorem test_frame_slots :
    slots ((frame .stbR 0xC0 [0x1F, 0xFF, 0x20, 0xE4]).map (·.event .ok)) =
      [0, 0, 0, 0, 0, 0, 1, 1] ++ [1, 1, 1, 1, 1] ++ [1, 1, 1, 1, 1, 0, 0, 0, 0, 0, 0] ++ [0, 0, 0, 0, 0] ++
        [0, 0, 1, 0, 0, 0, 0, 0, 0, 0, 0] ∧
    (frame .stbR 0xC0 [0x1F, 0xFF, 0x20, 0xE4]).length = 122 := by decide

/-- V-ENC-8. -/
theorem test_frame_drops_fifteenth_byte : frame .stbL 0xC0 (zeros 14 ++ [0x1F]) = frame .stbL 0xC0 (zeros 14) := by decide +kernel

/-- V-ENC-10. -/
theorem test_frame_stops_at_error :
    (exec (.cmdPowerOn .left 3) (failingAt 4 fresh)) =
      .next { failingAt 4 fresh with
        events := [.lvl .clk false .err, .lvl .clk true .ok, .lvl .dio true .ok, .lvl .clk false .ok, .lvl .stbL false .ok]
        lvl := ⟨.unknown, .high, .low, .unknown⟩
        answers := [], draws := 5, unitResult := some .err } := rfl

/-! ## Display Unit operations (§2.2) -/

/-- V-UNIT-1 to V-UNIT-4. -/
theorem test_powerByte :
    (List.range 16).map (fun b => powerByte true (BitVec.ofNat 8 b)) =
      [0x88, 0x89, 0x8A, 0x8B, 0x8C, 0x8D, 0x8E, 0x8F, 0x88, 0x89, 0x8A, 0x8B, 0x8C, 0x8D, 0x8E, 0x8F] ∧
    powerByte true 255 = 0x8F ∧ powerByte false 0 = 0x80 ∧ powerByte false 7 = 0x80 ∧ powerByte false 255 = 0x80 := by
  decide

/-- V-UNIT-6: the bits of 0x35, low bit first. -/
theorem test_cmdDisplayMode :
    look (exec (.cmdDisplayMode .left) (answering 26 fresh)) =
      some ([1, 0, 1, 0, 1, 1, 0, 0], 26, none, .unconfigured) := by decide

/-- V-UNIT-7: the bits of 0x4A, low bit first. -/
theorem test_cmdDataMode :
    look (exec (.cmdDataMode .right) (answering 26 fresh)) =
      some ([0, 1, 0, 1, 0, 0, 1, 0], 26, none, .unconfigured) := by decide

/-- V-UNIT-8. -/
theorem test_cmdAddrWrite :
    look (exec (.cmdAddrWrite .left [0x1F, 0x01]) (answering 74 fresh)) =
      some ([0, 0, 0, 0, 0, 0, 1, 1, 1, 1, 1, 1, 1, 1, 0, 0, 0, 0, 0, 0, 0, 0, 0, 0], 74, none, .unconfigured) := by decide

/-- V-UNIT-5, the string of 8E. -/
theorem test_cmdPowerOn :
    look (exec (.cmdPowerOn .right 6) (answering 26 fresh)) =
      some ([0, 1, 1, 1, 0, 0, 0, 1], 26, none, .unconfigured) := by decide

/-- V-ENC-6: the levels at the end of the power-off frame. -/
theorem test_cmdPowerOff :
    (nextState (exec (.cmdPowerOff .left) (answering 26 fresh))).map (·.lvl) =
      some ⟨.high, .high, .high, .unknown⟩ := by decide

/-! ## Screen operations (§2.3) -/

/-- V-SCR-1. -/
theorem test_init : look (exec .init (answering 12 fresh)) = some ([], 13, some .ok, .ready) := by decide

/-- V-SCR-2. -/
theorem test_init_fails :
    (nextState (exec .init (failingAt 3 fresh))).map (fun t => (t.trace, t.life)) =
      some ([.exp .clk .ok, .exp .dio .ok, .exp .stbL .ok, .dir .clk .err, .resp .errPinConfig], .initFailed) := by decide

/-- V-SCR-4: the same frame on STB_L and then on STB_R. -/
theorem test_setDisplayMode :
    look (exec .setDisplayMode (answering 52 ready)) =
      some ([1, 0, 1, 0, 1, 1, 0, 0, 1, 0, 1, 0, 1, 1, 0, 0], 53, some .ok, .ready) := by decide

/-- V-SCR-5: ten events of the left frame and the response. -/
theorem test_setDataMode_left_fails :
    (look (exec .setDataMode (failingAt 9 ready))).map (·.2) = some (11, some .errLineWrite, .ready) := by decide

/-- V-SCR-6. -/
theorem test_setPowerOn :
    look (exec (.setPowerOn 9) (answering 52 ready)) =
      some ([1, 0, 0, 1, 0, 0, 0, 1, 1, 0, 0, 1, 0, 0, 0, 1], 53, some .ok, .ready) := by decide

/-- V-SCR-7. -/
theorem test_setPowerOff :
    look (exec (.setPowerOff 200) (answering 52 ready)) =
      some ([0, 0, 0, 0, 0, 0, 0, 1, 0, 0, 0, 0, 0, 0, 0, 1], 53, some .ok, .ready) := by decide

/-- V-SCR-8: the status byte 0x0F is the right frame's last byte. -/
theorem test_writeFrame :
    look (exec (.writeFrame 0x0F []) (answering 724 ready)) =
      some ([0, 0, 0, 0, 0, 0, 1, 1] ++ List.replicate 112 0 ++ [0, 0, 0, 0, 0, 0, 1, 1] ++ List.replicate 101 0 ++
        [1, 1, 1, 1, 0, 0, 0, 0, 0, 0, 0], 725, some .ok, .ready) := by decide +kernel

/-- V-SCR-10. -/
theorem test_writeFrame_too_long :
    look (exec (.writeFrame 0 (zeros 28)) ready) = some ([], 1, some .errContract, .ready) := by decide

/-- V-SCR-15: the events after the 776 line writes. -/
theorem test_shutdown_release_fails :
    (nextState (exec .shutdown { ready with
        answers := List.replicate 778 .ok ++ [.err, .ok, .err, .ok] })).map (fun t => (t.trace.drop 776, t.life)) =
      some ([.relH, .rel .clk .ok, .rel .dio .ok, .rel .stbL .err, .rel .clk .ok, .rel .dio .err, .rel .stbR .ok,
        .resp .errRelease], .released) := by decide +kernel

/-- V-SCR-13: the fourth call fails and the instance sends no blanking frame. -/
theorem test_shutdown_power_fails :
    (nextState (exec .shutdown { ready with
        answers := List.replicate 3 .ok ++ .err :: List.replicate 6 .ok })).map (fun t => (t.trace.length, t.resp, t.lvl)) =
      some (12, some .errLineWrite, ⟨.unknown, .unknown, .unknown, .unknown⟩) := by decide

/-- V-REQ-13 and V-REQ-14: the lifecycle check comes after the check of `OP`. -/
theorem test_check_order :
    [[0x02, 0, 0, 0], [0x08, 0, 0, 0]].map (fun r => (nextState (step (holding r fresh))).map (·.resp)) =
      [some (some .errState), some (some .errIllegal)] := by decide

/-! ## Characters and rendering (§2.4, §2.5) -/

/-- V-LUT-1: "hello". -/
theorem test_expand_lowercase : expand fixture [0x68, 0x65, 0x6C, 0x6C, 0x6F] = [0x11, 0x12, 0x13, 0x13, 0x14] := by decide

/-- V-LUT-3 and V-LUT-5: "A?B" and "1:2". -/
theorem test_expand_misses :
    expand fixture [0x41, 0x3F, 0x42] = [0x01, 0x02, 0x03] ∧ expand fixture [0x31, 0x3A, 0x32] = [0x11, 0xE4, 0x12] := by
  decide

/-- S11: the columns of "HELLO". -/
theorem test_centred_hello :
    leftData (centred [0x11, 0x12, 0x13, 0x13, 0x14]) = zeros 11 ++ [0x11, 0x12, 0x13] ∧
    rightData (centred [0x11, 0x12, 0x13, 0x13, 0x14]) 0x0F = [0x13, 0x14] ++ zeros 11 ++ [0x0F] := by decide

/-- V-REN-1: the left offsets for L = 0 to 27. -/
theorem test_static_offsets :
    (List.range 28).map (fun n => (centred (List.replicate n 0xFF)).takeWhile (· == 0) |>.length) =
      [27, 13, 12, 12, 11, 11, 10, 10, 9, 9, 8, 8, 7, 7, 6, 6, 5, 5, 4, 4, 3, 3, 2, 2, 1, 1, 0, 0] := by decide

/-- V-REN-2: "Hi" with status 1. -/
theorem test_render_static :
    look (exec (.render 0x01 [0x48, 0x69]) (answering 724 ready)) =
      some ([0, 0, 0, 0, 0, 0, 1, 1] ++ List.replicate 96 0 ++ [1, 0, 0, 0, 1] ++ [1, 1, 1, 1, 1, 0, 0, 0, 0, 0, 0] ++
        [0, 0, 0, 0, 0, 0, 1, 1] ++ List.replicate 101 0 ++ [1, 0, 0, 0, 0, 0, 0, 0, 0, 0, 0], 725, some .ok, .ready) := by
  decide +kernel

/-- V-REN-5: 28 characters scroll, here with the first frame's first call answered `err` (V-REN-6). -/
theorem test_render_scroll_aborts :
    (nextState (exec (.render 0 (List.replicate 28 0x41)) (failingAt 0 ready))).map (·.trace) =
      some [.lvl .stbL false .err, .resp .errLineWrite] := by decide

/-- V-REN-3: frames 27, 28 and 29 of the 29 digits. -/
theorem test_scroll_windows :
    let buf := expand fixture ((List.range 29).map fun k => 0x30 + k % 10)
    [27, 28, 29].map (fun i => pad27 (slice buf (cursor i) i)) =
      [0, 1, 2].map (fun o => (List.range 27).map fun c => BitVec.ofNat 8 (0x10 + (c + o) % 10)) := by decide

/-- R76, R77: a program text with a comment line; `set_power off` means `set_power off, 0`. -/
theorem test_assemble :
    assemble fixture "init ; bring-up\n\nset_power off\nset_data_mode".toList =
      some [[0x01, 0, 0, 0], [0x04, 0, 0, 0], [0x03, 0, 0, 0]] := by decide

/-! ## Witnesses: states and operands that meet the hypotheses of each obligation together -/

/-- A state that meets the invariant and from which a step performs INIT. -/
theorem witness_EveryStepKeepsTheInvariant :
    (holding [0x01, 0, 0, 0] fresh).Inv ∧ ∃ t, step (holding [0x01, 0, 0, 0] fresh) = .next t :=
  ⟨⟨fixture_legal, rfl, rfl, rfl, ⟨rfl, rfl⟩, ⟨rfl, rfl, rfl, rfl⟩, fun _ => by decide⟩,
    let ⟨_, _, _, _, h⟩ := exec_host (i := .init) rfl (holding [0x01, 0, 0, 0] fresh); ⟨_, h⟩⟩

theorem witness_EveryStepKeepsTheLifecycleOrder :
    (holding [0x01, 0, 0, 0] fresh).LifeOrder ∧ ∃ t, step (holding [0x01, 0, 0, 0] fresh) = .next t :=
  ⟨⟨rfl, rfl⟩, witness_EveryStepKeepsTheInvariant.2⟩

/-- A READY block that meets the lifecycle order: its 12 pin calls are in the trace. -/
theorem witness_EveryStepKeepsTheLifecycleOrder_ready :
    let s := { holding [0x07, 0, 0, 0] ready with events := initEvents.reverse }
    s.LifeOrder ∧ ∃ t, step s = .next t :=
  ⟨⟨rfl, [], by decide, by simp⟩, let ⟨_, _, _, _, h⟩ := exec_host (i := .shutdown) rfl _; ⟨_, h⟩⟩

theorem witness_StepPerformsTheRequestInHand :
    let s := holding [0x14, 0x07, 0, 0] ready
    s.unitCall = none ∧ s.busy = true ∧ s.program[s.pos]? = some [0x14, 0x07, 0, 0] ∧
      decodeRequest [0x14, 0x07, 0, 0] = .instr (.setPowerOn 7) := ⟨rfl, rfl, rfl, by decide⟩

theorem witness_StepPerformsTheCalledUnitOperation :
    let s := { ready with unitCall := some (.right, [0xC0, 0x1F]) }
    s.unitCall = some (.right, [0xC0, 0x1F]) ∧
      decodeWire s.cfg .right [0xC0, 0x1F] = .instr (.cmdAddrWrite .right [0x1F]) := ⟨rfl, by decide⟩

theorem witness_FreeBlockAcceptsOrWaits :
    (let s := { ready with program := [[0x02, 0, 0, 0]] }
     s.unitCall = none ∧ s.busy = false ∧ s.program[s.pos]? = some [0x02, 0, 0, 0]) ∧
    (ready.unitCall = none ∧ ready.busy = false ∧ ready.program[ready.pos]? = none) :=
  ⟨⟨rfl, rfl, rfl⟩, rfl, rfl, rfl⟩

theorem witness_IllegalRequestsOnlyGetAnAnswer :
    let s := holding [0x0F, 0, 0, 0] ready
    s.unitCall = none ∧ s.busy = true ∧ s.program[s.pos]? = some [0x0F, 0, 0, 0] ∧
      decodeRequest [0x0F, 0, 0, 0] = .illegal .reservedOp := ⟨rfl, rfl, rfl, by decide⟩

theorem witness_PositionMovesOncePerResponse :
    (let s := holding [0, 0, 0, 0] ready
     s.unitCall = none ∧ s.busy = true ∧ ∃ t, step s = .next t) ∧
    (let s := { ready with program := [[0, 0, 0, 0]] }
     s.unitCall = none ∧ s.busy = false ∧ ∃ t, step s = .next t) :=
  ⟨⟨rfl, rfl, _, rfl⟩, rfl, rfl, _, rfl⟩

theorem witness_TraceOnlyGrows : ∃ t, step (holding [0x01, 0, 0, 0] fresh) = .next t :=
  witness_EveryStepKeepsTheInvariant.2

/-- The clauses of the request checks at their edges: three bytes; `OP` 1 and 7; `N` 27 columns; the last scalar. -/
theorem witness_ExactlyTheLegalRequestsDecode :
    [0x01, 0, 0].length < 4 ∧
    (decodeRequest [0x01, 0, 0, 0]).toOption.isSome ∧ (decodeRequest [0x07, 0, 0, 0]).toOption.isSome ∧
    (decodeRequest ([0x05, 0xFF, 27, 0] ++ zeros 27)).toOption.isSome ∧
    (decodeRequest [0x06, 0, 1, 0, 0xFF, 0xFF, 0x10, 0]).toOption.isSome ∧
    ¬ (decodeRequest [0x06, 0, 1, 0, 0x00, 0x00, 0x11, 0]).toOption.isSome := by decide

theorem witness_ContractErrorsComeBeforeTheLifecycle :
    27 < (zeros 28).length ∧ fresh.cfg.maxText < (List.replicate 41 0x41).length := by decide

/-- Each clause: INIT in READY, SHUTDOWN in READY, and a full-length frame. -/
theorem witness_WrongLifecycleGetsErrState :
    (contractMet ready.cfg .init ∧ ready.life ≠ neededLife .init) ∧
    (contractMet ready.cfg .shutdown ∧ ready.life = neededLife .shutdown) ∧
    (contractMet fresh.cfg (.writeFrame 0 (zeros 27)) ∧ fresh.life ≠ neededLife (.writeFrame 0 (zeros 27))) :=
  ⟨⟨trivial, by decide⟩, ⟨trivial, rfl⟩, by simp [contractMet], by decide⟩

theorem witness_FinalLifeValuesOnlyAnswer :
    (({ ready with life := .initFailed }).life = .initFailed ∧ contractMet fixture .init) ∧
    (({ ready with life := .released }).life = .released ∧ ¬ contractMet fixture (.writeFrame 0 (zeros 28))) :=
  ⟨⟨rfl, trivial⟩, rfl, by simp [contractMet]⟩

/-- All 26 calls of a command-only frame succeed, or the first or the last fails. -/
theorem witness_UnitCommandsSendOneFrame (u : UnitId) (cmd : Byte) :
    (answering 26 fresh).allOk (callCount (frameEvents (strobe u) cmd [])) ∧
    (0 < callCount (frameEvents (strobe u) cmd []) ∧ (failingAt 0 fresh).firstErrAt 0) ∧
    (25 < callCount (frameEvents (strobe u) cmd []) ∧ (failingAt 25 fresh).firstErrAt 25) := by
  rw [callCount_frameEvents]
  exact ⟨answering_ok 26 fresh, ⟨by decide, failingAt_err 0 fresh⟩, by decide, failingAt_err 25 fresh⟩

/-- The same for a full data frame, of 362 calls. -/
theorem witness_AddressWriteSendsItsDataBytes (u : UnitId) :
    (answering 362 fresh).allOk (callCount (frameEvents (strobe u) 0xC0 (zeros 14))) ∧
    361 < callCount (frameEvents (strobe u) 0xC0 (zeros 14)) ∧ (failingAt 361 fresh).firstErrAt 361 := by
  rw [callCount_frameEvents]
  exact ⟨answering_ok 362 fresh, by decide, failingAt_err 361 fresh⟩

theorem witness_UnitCommandFrame :
    commandUnit (.cmdPowerOff .right) = some .right ∧ ∃ t, exec (.cmdPowerOff .right) fresh = .next t := ⟨rfl, _, rfl⟩

theorem witness_InitConfiguresEveryPin :
    ((answering 12 fresh).life = .unconfigured ∧ (answering 12 fresh).allOk 12) ∧
    ((failingAt 0 fresh).life = .unconfigured ∧ (failingAt 0 fresh).firstErrAt 0) ∧
    ((failingAt 11 fresh).life = .unconfigured ∧ (failingAt 11 fresh).firstErrAt 11) :=
  ⟨⟨rfl, answering_ok 12 fresh⟩, ⟨rfl, failingAt_err 0 fresh⟩, rfl, failingAt_err 11 fresh⟩

theorem witness_InitLeavesEveryLevelUnknown :
    ∃ t, exec .init (answering 12 fresh) = .next t ∧ (answering 12 fresh).life = .unconfigured ∧ t.life = .ready :=
  ⟨_, (exec_init rfl).1 (answering_ok 12 fresh), rfl, rfl⟩

theorem witness_ModeAndPowerRequestsReachBothUnits (cmd : Byte) :
    ((answering 52 ready).life = .ready ∧ (answering 52 ready).allOk (callCount (bothCommand cmd))) ∧
    ((failingAt 51 ready).life = .ready ∧ 51 < callCount (bothCommand cmd) ∧ (failingAt 51 ready).firstErrAt 51) := by
  rw [callCount_bothCommand]
  exact ⟨⟨rfl, answering_ok 52 ready⟩, rfl, by decide, failingAt_err 51 ready⟩

/-- The longest frame, and the empty one; all calls succeed, or the last fails. -/
theorem witness_WriteFrameSendsOneScreenFrame :
    (zeros 27).length ≤ 27 ∧ ([] : List Byte).length ≤ 27 ∧
    ((answering 724 ready).life = .ready ∧
      (answering 724 ready).allOk (callCount (screenEvents (plainColumn (zeros 27)) 0x0F))) ∧
    ((failingAt 723 ready).life = .ready ∧ 723 < callCount (screenEvents (plainColumn []) 0x0F) ∧
      (failingAt 723 ready).firstErrAt 723) := by
  rw [callCount_screenEvents, callCount_screenEvents]
  exact ⟨by decide, by decide, ⟨rfl, answering_ok 724 ready⟩, rfl, by decide, failingAt_err 723 ready⟩

theorem witness_WriteFrameSetsTheFrameRegisters :
    [0x1F].length ≤ 27 ∧ ∃ t r, State.writeFrame [0x1F] 0x01 ready = (t, r) := ⟨by decide, _, _, rfl⟩

theorem witness_TopBitsNeverReachTheWire :
    wireBits 0x1F = wireBits 0xFF ∧ [0x01, 0x00].map wireBits = [0xE1, 0x20].map wireBits := by decide

/-- 27 characters of one byte each, and no character. -/
theorem witness_ShortTextsRenderCentred :
    (let s := answering 724 ready
     (s.life = .ready ∧ (List.replicate 27 0x41).length ≤ s.cfg.maxText ∧
        (expand s.cfg (List.replicate 27 0x41)).length ≤ 27) ∧
      s.allOk (callCount (screenEvents (centredColumn (expand s.cfg (List.replicate 27 0x41))) 0))) ∧
    (let s := failingAt 0 ready
     (s.life = .ready ∧ ([] : List Nat).length ≤ s.cfg.maxText ∧ (expand s.cfg []).length ≤ 27) ∧
      0 < callCount (screenEvents (centredColumn (expand s.cfg [])) 0) ∧ s.firstErrAt 0) := by
  simp only [callCount_screenEvents]
  exact ⟨⟨⟨rfl, by decide, by decide⟩, answering_ok 724 ready⟩, ⟨rfl, by decide, by decide⟩, by decide,
    failingAt_err 0 ready⟩

/-- A scroll makes at least one call. -/
theorem scroll_calls : 0 < callCount (scrollEvents (expand fixture (List.replicate 28 0x41)) 0) := by
  have h : (expand fixture (List.replicate 28 0x41)).length = 27 + 1 := by decide
  rw [scrollEvents, h, List.range_succ_eq_map, List.flatMap_cons, callCount_append, callCount_append,
    callCount_screenEvents]
  omega

/-- 28 characters of one byte each: the shortest scroll. All its calls succeed, or the first fails. The last step's index
is in the buffer's range. -/
theorem witness_LongTextsScroll :
    (let s := answering (callCount (scrollEvents (expand fixture (List.replicate 28 0x41)) 0)) ready
     (s.life = .ready ∧ (List.replicate 28 0x41).length ≤ s.cfg.maxText ∧
        27 < (expand s.cfg (List.replicate 28 0x41)).length) ∧
      s.allOk (callCount (scrollEvents (expand s.cfg (List.replicate 28 0x41)) 0))) ∧
    (let s := failingAt 0 ready
     (s.life = .ready ∧ (List.replicate 28 0x41).length ≤ s.cfg.maxText ∧
        27 < (expand s.cfg (List.replicate 28 0x41)).length) ∧
      0 < callCount (scrollEvents (expand s.cfg (List.replicate 28 0x41)) 0) ∧ s.firstErrAt 0) ∧
    28 ≤ (expand fixture (List.replicate 28 0x41)).length :=
  ⟨⟨⟨rfl, by decide, by decide⟩, answering_ok _ ready⟩,
    ⟨⟨rfl, by decide, by decide⟩, scroll_calls, failingAt_err 0 ready⟩, by decide⟩

theorem witness_ScrollLengthAndDelay :
    let s := answering (724 * 28) ready
    s.life = .ready ∧ (List.replicate 28 0x41).length ≤ s.cfg.maxText ∧
      27 < (expand s.cfg (List.replicate 28 0x41)).length ∧
      s.allOk (724 * (expand s.cfg (List.replicate 28 0x41)).length) := by
  have h : (expand fixture (List.replicate 28 0x41)).length = 28 := by decide
  refine ⟨rfl, by decide, h ▸ by decide, ?_⟩
  show State.allOk _ (724 * (expand fixture (List.replicate 28 0x41)).length)
  rw [h]
  exact answering_ok (724 * 28) ready

theorem witness_ScrollStepSetsItsRegisters :
    ∃ t r, State.scrollStep 0 28 (ready.loadText (List.replicate 28 0x41)) = (t, r) := ⟨_, _, rfl⟩

theorem witness_UnknownCharactersRenderBlank :
    let s := answering 724 ready
    s.life = .ready ∧ [0x3F].length ≤ s.cfg.maxText ∧ (∀ c ∈ [0x3F], charLut s.cfg (upper s.cfg c) = none) ∧
      s.allOk 724 := ⟨rfl, by decide, by decide, answering_ok 724 ready⟩

/-- The fixture's table with bits 7:5 of every entry turned on. -/
theorem witness_TableTopBitsNeverReachTheWire :
    List.Forall₂ (fun e e' : Nat × List Byte => e.1 = e'.1 ∧ e.2.map wireBits = e'.2.map wireBits) ready.cfg.charLut
      (ready.cfg.charLut.map fun e => (e.1, e.2.map (· ||| 0xE0))) := by
  rw [List.forall₂_map_right_iff, List.forall₂_same]
  decide

theorem witness_RequiredCharactersHaveGlyphs :
    fixture.wf ∧ 0x41 ∈ requiredKeys ∧ 0x2103 ∈ requiredKeys ∧ 25 < 26 := ⟨fixture_legal, by decide, by decide, by decide⟩

theorem witness_ExpansionFollowsTheText :
    charLut fixture (upper fixture 0x3F) = none ∧ fixture.wf := ⟨by decide, fixture_legal⟩

theorem witness_ShutdownOfAWorkingLine :
    (answering 782 ready).life = .ready ∧ (answering 782 ready).allOk 782 := ⟨rfl, answering_ok 782 ready⟩

theorem witness_ShutdownAlwaysReleasesEveryPin : (failingAt 780 ready).life = .ready := rfl

/-- A READY block whose instance blanks after a failed power-off, the 52nd call failing and the next 724 succeeding. -/
def blanking : State :=
  { ready with
    cfg := { fixture with shutdownBlankAfterPowerErr := true }
    answers := List.replicate 51 Answer.ok ++ Answer.err :: List.replicate 724 Answer.ok }

/-- The same block, the last call of the blanking frame failing after the last call of the power-off. -/
def blankingFails : State :=
  { blanking with answers := List.replicate 51 Answer.ok ++ Answer.err :: (List.replicate 723 Answer.ok ++ [Answer.err]) }

/-- Answer number `51 + 1 + j` is number `j` after the failed one. -/
theorem answer_behind {s : State} {as : List Answer} {a : Answer}
    (h : s.answers = List.replicate 51 Answer.ok ++ Answer.err :: as) {j : Nat} (hj : as[j]? = some a) :
    s.answerAt (51 + 1 + j) = a := by
  have hget : s.answers[51 + 1 + j]? = some a := by
    rw [h, List.getElem?_append_right (by simp; omega), List.length_replicate, show 51 + 1 + j - 51 = j + 1 by omega,
      List.getElem?_cons_succ, hj]
  rw [State.answerAt, hget, Option.getD_some]

/-- Each clause at the edges: the blanking frame's first or last call fails; the power-off's first or last call fails, and
the instance does not blank, or blanks, or blanks and fails at its last call. -/
theorem witness_ShutdownBlanksAsConfigured :
    ((failingAt 52 ready).life = .ready ∧ 0 < 724 ∧ (failingAt 52 ready).firstErrAt (52 + 0)) ∧
    ((failingAt 775 ready).life = .ready ∧ 723 < 724 ∧ (failingAt 775 ready).firstErrAt (52 + 723)) ∧
    ((failingAt 0 ready).life = .ready ∧ 0 < 52 ∧ (failingAt 0 ready).firstErrAt 0 ∧
      (failingAt 0 ready).cfg.shutdownBlankAfterPowerErr = false) ∧
    (blanking.life = .ready ∧ 51 < 52 ∧ blanking.firstErrAt 51 ∧ blanking.cfg.shutdownBlankAfterPowerErr = true ∧
      ∀ j < 724, blanking.answerAt (51 + 1 + j) = .ok) ∧
    (blankingFails.life = .ready ∧ 51 < 52 ∧ blankingFails.firstErrAt 51 ∧
      blankingFails.cfg.shutdownBlankAfterPowerErr = true ∧ 723 < 724 ∧
      (∀ j < 723, blankingFails.answerAt (51 + 1 + j) = .ok) ∧ blankingFails.answerAt (51 + 1 + 723) = .err) := by
  have hb : blanking.answers = List.replicate 51 Answer.ok ++ Answer.err :: List.replicate 724 Answer.ok := by
    rw [blanking]
  have hf : blankingFails.answers =
      List.replicate 51 Answer.ok ++ Answer.err :: (List.replicate 723 Answer.ok ++ [Answer.err]) := by
    rw [blankingFails]
  refine ⟨⟨rfl, by decide, failingAt_err 52 ready⟩, ⟨rfl, by decide, failingAt_err 775 ready⟩,
    ⟨rfl, by decide, failingAt_err 0 ready, rfl⟩,
    ⟨rfl, by decide, firstErrAt_of_answers hb, rfl, fun j hj => answer_behind hb ?_⟩,
    rfl, by decide, firstErrAt_of_answers hf, rfl, by decide, fun j hj => answer_behind hf ?_, answer_behind hf ?_⟩
  · rw [List.getElem?_replicate, if_pos hj]
  · rw [List.getElem?_append_left (by rw [List.length_replicate]; exact hj), List.getElem?_replicate, if_pos hj]
  · rw [List.getElem?_append_right (by rw [List.length_replicate]), List.length_replicate]; rfl

/-- For every host request and every state there is a next state; here SET_POWER in READY. -/
theorem witness_HostRequestFrame :
    Instr.isHostRequest (.setPowerOn 7) = true ∧ ∃ t, exec (.setPowerOn 7) (answering 52 ready) = .next t :=
  ⟨rfl, let ⟨_, _, _, _, h⟩ := exec_host (i := .setPowerOn 7) rfl (answering 52 ready); ⟨_, h⟩⟩

/-- INIT succeeding, INIT failing, SHUTDOWN, and a request that moves nothing. -/
theorem witness_LifecycleMovesOnlyByInitAndShutdown :
    ((∃ t, exec .init (answering 12 fresh) = .next t) ∧ (answering 12 fresh).allOk 12) ∧
    ((∃ t, exec .init (failingAt 11 fresh) = .next t) ∧ ¬ (failingAt 11 fresh).allOk 12) ∧
    ((∃ t, exec .shutdown ready = .next t) ∧ ready.life = .ready) ∧
    ((∃ t, exec .init ready = .next t) ∧ ¬ (Instr.init = .init ∧ ready.life = .unconfigured)) :=
  have next : ∀ {i : Instr}, i.isHostRequest = true → ∀ s, ∃ t, exec i s = .next t := fun h s =>
    let ⟨_, _, _, _, he⟩ := exec_host h s; ⟨_, he⟩
  ⟨⟨next rfl _, answering_ok 12 fresh⟩, ⟨next rfl _, not_allOk_of_firstErrAt (failingAt_err 11 fresh) (by decide)⟩,
    ⟨next rfl _, rfl⟩, next rfl _, by simp [ready]⟩

theorem witness_FirstErrorEndsTheOperation :
    Instr.isHostRequest .init = true ∧ Instr.init ≠ .shutdown ∧
    ∃ t, exec .init (failingAt 3 fresh) = .next t ∧
      t.trace = (failingAt 3 fresh).trace ++
        [Event.exp .clk .ok, Event.exp .dio .ok, Event.exp .stbL .ok, Event.dir .clk .err] ++ [Event.resp .errPinConfig] := ⟨rfl, by decide, _, (exec_init rfl).2 3 (by decide) (failingAt_err 3 fresh), rfl⟩

/-- A SET_DISPLAY_MODE that reaches the right unit's strobe. -/
theorem witness_LeftFrameComesFirst :
    let s := failingAt 26 ready
    Instr.isHostRequest .setDisplayMode = true ∧ sendsOnePair .setDisplayMode = true ∧
    ∃ t, exec .setDisplayMode s = .next t ∧
      t.trace = s.trace ++ (frameEvents .stbL 0x35 [] ++ [Event.lvl .stbR false .err]) ++ [Event.resp .errLineWrite] :=
  ⟨rfl, rfl, _, rfl, by decide⟩

theorem witness_DataIsWrittenBeforeTheClockRises :
    ∃ t, exec (.cmdPowerOff .left) (failingAt 3 fresh) = .next t ∧
      t.trace = (failingAt 3 fresh).trace ++
        ([Event.lvl .stbL false .ok, Event.lvl .clk false .ok, Event.lvl .dio false .ok] ++ [Event.lvl .clk true .err]) := ⟨_, rfl, rfl⟩

/-- Two blocks that differ in their traces, levels and last responses only. -/
theorem witness_NothingElsePersistsBetweenRequests :
    let s' := { ready with events := [.resp .errLineWrite], resp := some .errLineWrite, lvl := ⟨.low, .low, .low, .low⟩ }
    s'.cfg = ready.cfg ∧ s'.life = ready.life ∧ s'.answers = ready.answers ∧ s'.draws = ready.draws ∧
      s'.trace ≠ ready.trace := ⟨rfl, rfl, rfl, rfl, by decide⟩

/-- A SET_DATA_MODE, and a RENDER of a text of no characters. -/
theorem witness_CompletedRequestsLeaveBothStrobesHigh :
    (sendsOnePair .setDataMode = true ∧
      ∃ t, exec .setDataMode (answering 52 ready) = .next t ∧ t.resp = some .ok) ∧
    ((∃ st text, Instr.render 0x01 [] = .render st text) ∧
      ∃ t, exec (.render 0x01 []) (answering 724 ready) = .next t ∧ t.resp = some .ok) :=
  ⟨⟨rfl, _, (exec_sends (i := .setDataMode) rfl (by decide) (by decide) rfl trivial).1
      (by rw [sentEvents, callCount_bothCommand]; exact answering_ok 52 ready), rfl⟩,
    ⟨_, _, rfl⟩, _, (exec_sends (i := .render 0x01 []) rfl (by decide) (by decide) rfl (Nat.zero_le _)).1
      (by rw [sentEvents, if_pos (by exact Nat.zero_le _), callCount_screenEvents]; exact answering_ok 724 ready), rfl⟩

/-- The first and the last data byte of a full frame, their first and last bits, and the last padding bit. -/
theorem witness_SlotPositions :
    0 < min (zeros 14).length 14 ∧ 13 < min (zeros 14).length 14 ∧ 13 % 2 = 1 ∧ 4 < 5 ∧ 5 < 6 := by decide

/-- A completed command-only frame, and completed frames with an odd and an even number of data bytes. -/
theorem witness_CompletedFrameLevels :
    ∀ d : List Byte, d.length = 0 ∨ d.length = 1 ∨ d.length = 14 →
      ∃ s t, State.sendFrame .left 0xC0 d s = (t, .ok) := by
  intro d _
  refine ⟨answering (callCount (frameEvents (strobe .left) 0xC0 d)) fresh, _, (sendFrame_sends _ _ _ _).allOk ?_⟩
  exact answering_ok _ fresh

/-- The first call, a middle one and the last call of a frame fail. -/
theorem witness_FailedFrameLeavesItsStrobeInDoubt :
    ∀ k ∈ [0, 12, 25], ∃ t, State.sendFrame .right 0x80 [] (failingAt k fresh) = (t, .err) := by
  intro k hk
  have h26 : k < callCount (frameEvents (strobe .right) 0x80 []) := by
    rw [callCount_frameEvents]; revert k; decide
  exact ⟨_, (sendFrame_sends _ _ _ _).firstErr k h26 (failingAt_err k fresh)⟩

theorem witness_EncodedRequestsDecode :
    (Instr.render 0xFF [0, 0xD7FF, 0xE000, 0x10FFFF]).wf = true ∧
    (Instr.render 0xFF [0, 0xD7FF, 0xE000, 0x10FFFF]).isHostRequest = true := by decide

theorem witness_DecodedRequestsEncodeBack :
    decodeRequest (0x05 :: 0xFF :: 0x01 :: 0x00 :: [0xE4]) = .instr (.writeFrame 0xFF [0xE4]) := by decide

theorem witness_EncodedWireCommandsDecode :
    commandUnit (.cmdDataMode .right) = some .right ∧
    (∀ v, v = fixture.displayModeCmd ∨ v = fixture.dataModeCmd →
      v ≠ 0xC0 ∧ v ≠ 0x80 ∧ v.extractLsb' 3 5 ≠ 0b10001#5) ∧
    fixture.displayModeCmd ≠ fixture.dataModeCmd := by
  refine ⟨rfl, ?_, by decide⟩
  rintro v (rfl | rfl) <;> decide

theorem witness_LineDriverTellsThePinsApart :
    fixture.wf ∧ fixture.pinNumber .clk = fixture.pinNumber .clk ∧
    ((Event.lvl .clk true .ok).driverCall fixture).isSome = true ∧
    (Event.lvl .clk true .ok).driverCall fixture = (Event.lvl .clk true .err).driverCall fixture :=
  ⟨fixture_legal, rfl, rfl, rfl⟩

end Sys2Proof.Tests
end

