-- ==== Sys2Proof/Proofs/Scope.lean ====
section
/-! The pin numbers of a legal configuration and the calls the line driver sees (R8, R31). -/

namespace Sys2Proof

/-- Every pin stands in this list, so the pairwise distinctness of R8 and R32 is that the numbering repeats nothing. -/
theorem Config.pinNumber_injective {c : Config} (h : c.pinsDistinct) : Function.Injective c.pinNumber := by
  have hall : ∀ p : Pin, p ∈ [Pin.clk, .dio, .stbL, .stbR] := by intro p; cases p <;> decide
  have hnodup : ([Pin.clk, .dio, .stbL, .stbR].map c.pinNumber).Nodup := h
  exact fun p q hpq => List.inj_on_of_nodup_map hnodup (hall p) (hall q) hpq

end Sys2Proof

namespace Sys2Proof.Machine

/-- Where the pins have different numbers, a call to the line driver determines its event up to the answer. An event
of another kind is another call; one of the same kind has the same pin number, and so the same pin. -/
theorem Event.failed_eq_of_driverCall_eq {c : Config} (hinj : Function.Injective c.pinNumber) {e e' : Event}
    (hcall : (e.driverCall c).isSome = true) (heq : e.driverCall c = e'.driverCall c) : e.failed = e'.failed := by
  cases e with
  | resp st => simp [Event.driverCall] at hcall
  | relH => cases e' <;> simp [Event.driverCall] at heq; rfl
  | lvl | exp | dir | rel | wait =>
    cases e' <;> simp only [Event.driverCall, Option.some.injEq, DriverCall.setLevel.injEq, DriverCall.exportPin.injEq,
      DriverCall.setDirOut.injEq, DriverCall.release.injEq, DriverCall.delay.injEq, hinj.eq_iff, reduceCtorEq] at heq
    simp [Event.failed, heq]

/-- Settles O55: the pin numbering of a legal configuration is injective, and the calls carry the pin numbers. -/
theorem lineDriverTellsThePinsApart : Obligations.LineDriverTellsThePinsApart := by
  rintro c ⟨hpins, -⟩
  have hinj := Config.pinNumber_injective hpins
  exact ⟨fun _ _ hpq => hinj hpq, fun _ _ hcall heq => Event.failed_eq_of_driverCall_eq hinj hcall heq⟩

end Sys2Proof.Machine
end

