-- ==== Sys2Proof/Proofs/State.lean ====
section
/-! The state's rules (10_state.md): what a step leaves behind, the invariant, the frame of a host request, the lifecycle
register, the working registers, and that nothing but the configuration, the life value and the answers is read. -/

namespace Sys2Proof.Machine

/-! ## What a step leaves behind -/

/-- A request's events, and then its response, stand at the end of the trace (R27, R28). -/
theorem answered_trace (s : State) (l : Life) (w : List Event) (st : Status) :
    (({ s with life := l }.afterEvents w).responded st).trace = s.trace ++ w ++ [.resp st] := by
  rw [State.responded_trace, State.afterEvents_trace]; rfl

/-- A wire command appends no response. -/
theorem unit_next_noResp {i : Instr} {s t : State} (hi : i.isHostRequest = false) (h : exec i s = .next t) :
    ∃ w r, (∀ e ∈ w, e.isResponse = false) ∧ t = { s.afterEvents w with unitResult := some r } := by
  have hfull : ∀ e ∈ unitEvents s i, e.isResponse = false :=
    noResp_lines fun e he => .inl (unitEvents_writes s i e he)
  obtain ⟨w, r, ht, ⟨rfl, -⟩ | ⟨k, hk, rfl, -⟩⟩ := unit_next hi h
  · exact ⟨_, r, hfull, ht⟩
  · exact ⟨_, r, noResp_cut hfull hk, ht⟩

/-- A step in the claims' terms: what it leaves behind, without what made it do so (R22, R26, R28, log 5, log 7). -/
inductive StepEffect (s t : State) : Prop
  /-- A unit operation's events, and its result at the port. -/
  | unitOperation (w r) (hc : s.unitCall ≠ none) (hw : ∀ e ∈ w, e.isResponse = false)
      (ht : t = { s.afterEvents w with unitCall := none, unitResult := some r })
  /-- A request's events, and its one response. -/
  | answered (w l st) (hb : s.busy = true) (hw : ∀ e ∈ w, e.isResponse = false)
      (ht : t = ({ s with life := l }.afterEvents w).responded st)
  /-- The request at the position is accepted. -/
  | accepted (hb : s.busy = false) (hp : s.pos < s.program.length) (ht : t = s.accept)
  /-- Nothing. -/
  | waited (hb : s.busy = false) (ht : t = s)

theorem step_effect {s t : State} (h : step s = .next t) : StepEffect s t := by
  cases step_cases h with
  | unit u bytes i hc hd he =>
    obtain ⟨w, r, hw, ht⟩ := unit_next_noResp (decodeWire_unit hd).2 he
    exact .unitOperation w r (by simp [hc]) hw ht
  | request bytes i hc hb hp hd he =>
    obtain ⟨w, l, st, hr, ht⟩ := host_next (decodeRequest_host hd) he
    exact .answered w l st hb hr.noResp ht
  | illegal hc hb ht => exact .answered [] s.life .errIllegal hb (by simp) (by simpa using ht)
  | accept bytes hc hb hp ht => exact .accepted hb (List.getElem?_eq_some_iff.mp hp).1 ht
  | idle hc hb ht => exact .waited hb ht

/-! ## The invariant -/

/-- The invariant does not speak of `life` or of the unit port. -/
theorem State.Inv.withLifeAndPort {s : State} (h : s.Inv) (l : Life) (c : Option (UnitId × List Byte))
    (r : Option Answer) : State.Inv { s with life := l, unitCall := c, unitResult := r } :=
  ⟨h.cfg_legal, h.lvl_view, h.resp_view, h.pos_view, h.no_frame, h.no_scroll, h.busy_request⟩

/-- Events other than responses keep the invariant: the levels follow them, and no response is added (R25). -/
theorem State.Inv.afterEvents {s : State} (h : s.Inv) {w : List Event} (hw : ∀ e ∈ w, e.isResponse = false) :
    (s.afterEvents w).Inv where
  cfg_legal := h.cfg_legal
  lvl_view := by rw [State.afterEvents_trace, levelsOf_append, ← h.lvl_view]; rfl
  resp_view := by simp [lastResponse_append, lastResponse_none hw, h.resp_view]
  pos_view := by simp [countResp_zero hw, h.pos_view]
  no_frame := h.no_frame
  no_scroll := h.no_scroll
  busy_request := h.busy_request

/-- A response keeps the invariant: `resp`, `pos` and the trace move together, and the block is free (R22, R28). -/
theorem State.Inv.responded {s : State} (h : s.Inv) (st : Status) : (s.responded st).Inv where
  cfg_legal := h.cfg_legal
  lvl_view := by rw [State.responded_trace, levelsOf_append, ← h.lvl_view]; rfl
  resp_view := by simp [lastResponse_append, lastResponse]
  pos_view := by simp [Event.isResponse, h.pos_view]
  no_frame := ⟨rfl, rfl⟩
  no_scroll := ⟨rfl, rfl, rfl, rfl⟩
  busy_request hb := nomatch hb

/-- Accepting a request that is there keeps the invariant (R26). -/
theorem State.Inv.accept {s : State} (h : s.Inv) (hp : s.pos < s.program.length) : s.accept.Inv :=
  ⟨h.cfg_legal, h.lvl_view, h.resp_view, h.pos_view, h.no_frame, h.no_scroll, fun _ => hp⟩

/-- Settles O2: the configuration is legal, and every other clause is an equation of reset values. -/
theorem resetMeetsTheInvariant : Obligations.ResetMeetsTheInvariant :=
  ⟨Config.reference_wf, rfl, rfl, rfl, ⟨rfl, rfl⟩, ⟨rfl, rfl, rfl, rfl⟩, fun hb => nomatch hb⟩

/-- Settles O3: each effect of a step is made of updates that keep the invariant. -/
theorem everyStepKeepsTheInvariant : Obligations.EveryStepKeepsTheInvariant := by
  intro s t hinv h
  cases step_effect h with
  | unitOperation w r _ hw ht => exact ht ▸ (hinv.afterEvents hw).withLifeAndPort s.life none (some r)
  | answered w l st _ hw ht =>
    exact ht ▸ ((hinv.withLifeAndPort l s.unitCall s.unitResult).afterEvents hw).responded st
  | accepted _ hp ht => exact ht ▸ hinv.accept hp
  | waited _ ht => exact ht ▸ hinv

/-! ## The position and the trace -/

/-- Settles O10: a busy block's step answers its request, a free block's step accepts one or waits. -/
theorem positionMovesOncePerResponse : Obligations.PositionMovesOncePerResponse := by
  intro s t hport h
  cases step_effect h with
  | unitOperation _ _ hc => exact absurd hport hc
  | answered w l st hb hw ht =>
    subst ht
    exact ⟨rfl, fun _ => ⟨rfl, rfl, st, w, rfl, answered_trace s l w st, hw⟩, fun hfree => by simp [hb] at hfree⟩
  | accepted hb hp ht =>
    subst ht
    exact ⟨rfl, fun hbusy => by simp [hb] at hbusy, fun _ => ⟨rfl, rfl, rfl⟩⟩
  | waited hb ht =>
    subst ht
    exact ⟨rfl, fun hbusy => by simp [hb] at hbusy, fun _ => ⟨rfl, rfl, rfl⟩⟩

/-- Settles O11: each effect of a step adds its events, and a request its response, at the end. -/
theorem traceOnlyGrows : Obligations.TraceOnlyGrows := by
  intro s t h
  cases step_effect h with
  | unitOperation w r _ _ ht => exact ⟨w, ht ▸ s.afterEvents_trace w⟩
  | answered w l st _ _ ht => exact ⟨w ++ [.resp st], by rw [ht, answered_trace, List.append_assoc]⟩
  | accepted _ _ ht => exact ⟨[], by simp [ht]⟩
  | waited _ ht => exact ⟨[], by simp [ht]⟩

/-! ## Steps by what stands at the position -/

/-- A busy block fetches the request at its position (R22). -/
theorem fetch_busy {s : State} {bytes : List Byte} (hc : s.unitCall = none) (hb : s.busy = true)
    (hp : s.program[s.pos]? = some bytes) : s.fetch = .request (decodeRequest bytes) := by
  simp [State.fetch, State.requestInHand, hc, hb, hp]

/-- A free block with a request at its position accepts it (R26). -/
theorem fetch_free_some {s : State} {bytes : List Byte} (hc : s.unitCall = none) (hb : s.busy = false)
    (hp : s.program[s.pos]? = some bytes) : s.fetch = .accept := by
  simp [State.fetch, State.requestInHand, hc, hb, hp]

/-- A free block without one waits (R251). -/
theorem fetch_free_none {s : State} (hc : s.unitCall = none) (hb : s.busy = false)
    (hp : s.program[s.pos]? = none) : s.fetch = .idle := by
  simp [State.fetch, State.requestInHand, hc, hb, hp]

/-- Settles O6: the step performs what it fetches. -/
theorem stepPerformsTheRequestInHand : Obligations.StepPerformsTheRequestInHand := by
  intro s bytes i hc hb hp hd
  simp only [step, fetch_busy hc hb hp, hd]

/-- Settles O8: the step of a free block is decided by whether a request stands at the position. -/
theorem freeBlockAcceptsOrWaits : Obligations.FreeBlockAcceptsOrWaits := by
  intro s hc hb
  constructor
  · intro bytes hp
    simp only [step, fetch_free_some hc hb hp, State.accept]
  · intro hp
    simp only [step, fetch_free_none hc hb hp]

/-! ## The frame of a host request -/

/-- What a request other than INIT and SHUTDOWN does: it keeps `life` and makes only line writes and waits of 128 ms. -/
theorem Requested.linesOnly {i : Instr} {s : State} {w : List Event} {l : Life} {st : Status} (h : Requested i s w l st)
    (hinit : i ≠ .init) (hshut : i ≠ .shutdown) : l = s.life ∧ ∀ e ∈ w, e.isWrite = true ∨ e = .wait 128 := by
  have hsent : ∀ e ∈ sentEvents s i, e.isWrite = true ∨ e = .wait 128 := fun e he =>
    (sentEvents_lines s i e he).imp_left fun ⟨_, _, heq⟩ => heq ▸ rfl
  have hfailed : ∀ e : Event, (e.isWrite = true ∨ e = .wait 128) → (e.failed.isWrite = true ∨ e.failed = .wait 128) := by
    rintro e (hwrite | rfl)
    · exact .inl (e.failed_isWrite.trans hwrite)
    · exact .inr rfl
  cases h with
  | contract | wrongLife => exact ⟨rfl, by simp⟩
  | configured hi | configFailed hi => exact absurd hi hinit
  | sent _ _ _ hl => exact ⟨hl.symm, hsent⟩
  | cut _ _ _ hl k hk => exact ⟨hl.symm, mem_cut hsent hk hfailed⟩
  | shutDown hi => exact absurd hi hshut

/-- Settles O37: a host request's next state is its events and then its response, which names every field it sets. -/
theorem hostRequestFrame : Obligations.HostRequestFrame := by
  intro i s t hi h
  obtain ⟨w, l, st, hr, rfl⟩ := host_next hi h
  exact ⟨rfl, rfl, rfl, rfl, rfl, rfl, rfl, rfl, rfl, rfl, rfl, rfl, w, st, rfl, answered_trace s l w st, hr.noResp,
    rfl, rfl, rfl, hr.linesOnly⟩

/-! ## The lifecycle register -/

/-- Only INIT in UNCONFIGURED and SHUTDOWN in READY move `life` (R24). -/
theorem Requested.life_unchanged {i : Instr} {s : State} {w : List Event} {l : Life} {st : Status}
    (h : Requested i s w l st) (hinit : ¬ (i = .init ∧ s.life = .unconfigured))
    (hshut : ¬ (i = .shutdown ∧ s.life = .ready)) : l = s.life := by
  cases h with
  | contract | wrongLife => rfl
  | configured hi hl | configFailed hi hl => exact absurd ⟨hi, hl⟩ hinit
  | sent _ _ _ hl | cut _ _ _ hl => exact hl.symm
  | shutDown hi hl => exact absurd ⟨hi, hl⟩ hshut

/-- INIT in UNCONFIGURED ends in READY or INIT_FAILED, as its calls are answered (R24, R141). -/
theorem exec_init_life {s t : State} (hl : s.life = .unconfigured) (h : exec .init s = .next t) :
    (s.allOk 12 → t.life = .ready) ∧ (¬ s.allOk 12 → t.life = .initFailed) := by
  obtain ⟨hok, herr⟩ := exec_init hl
  constructor
  · intro ha
    rw [hok ha] at h; cases h; rfl
  · intro ha
    obtain ⟨k, hk, he⟩ := (allOk_or_firstErr s 12).resolve_left ha
    rw [herr k hk he] at h; cases h; rfl

/-- SHUTDOWN in READY ends in RELEASED (R24, R147). -/
theorem exec_shutdown_life {s t : State} (hl : s.life = .ready) (h : exec .shutdown s = .next t) :
    t.life = .released := by
  obtain ⟨w, -, he⟩ := exec_shutdown hl
  rw [he] at h; cases h; rfl

/-- Settles O38: the two moves are the laws of INIT and SHUTDOWN; no other case of a request, and no wire command, moves
`life`. -/
theorem lifecycleMovesOnlyByInitAndShutdown : Obligations.LifecycleMovesOnlyByInitAndShutdown := by
  refine ⟨⟨rfl, rfl, rfl, rfl⟩, rfl, fun i s t h => ⟨?_, ?_, fun hinit hshut => ?_⟩⟩
  · rintro rfl hl
    exact exec_init_life hl h
  · rintro rfl hl
    exact exec_shutdown_life hl h
  · cases hi : i.isHostRequest with
    | true =>
      obtain ⟨w, l, st, hr, rfl⟩ := host_next hi h
      exact hr.life_unchanged hinit hshut
    | false =>
      obtain ⟨w, r, -, rfl⟩ := unit_next_noResp hi h
      rfl

/-! ## The working registers -/

/-- Settles O1: the values of `State.reset`, and what loading a text does to `start`. -/
theorem resetLeavesTheSpecifiedValues : Obligations.ResetLeavesTheSpecifiedValues :=
  ⟨rfl, fun p => by cases p <;> rfl, rfl, rfl, rfl, rfl, rfl, rfl, rfl, rfl, State.loadText_start⟩

/-- WriteFrame loads its registers, and then only events happen (R145). -/
theorem writeFrame_eq_afterEvents {bytes : List Byte} (st : Byte) (s : State) (hl : bytes.length ≤ 27) :
    ∃ w r, s.writeFrame bytes st = ((s.loadFrame bytes st).afterEvents w, r) := by
  rcases (sendColumns_sends st s hl (col := plainColumn bytes) fun _ _ => rfl).cases with h | ⟨k, -, h⟩
  · exact ⟨_, _, h⟩
  · exact ⟨_, _, h⟩

/-- The padded columns, one by one (R145). -/
theorem pad27_eq_map {bytes : List Byte} (hl : bytes.length ≤ 27) :
    pad27 bytes = (List.range 27).map (plainColumn bytes) :=
  eq_map_range (pad27_length hl) fun c _ => pad27_getD bytes c

/-- Settles O24: the events leave the registers as they were loaded. -/
theorem writeFrameSetsTheFrameRegisters : Obligations.WriteFrameSetsTheFrameRegisters := by
  intro st bytes s t r hl h
  obtain ⟨w, r', hw⟩ := writeFrame_eq_afterEvents st s hl
  cases hw.symm.trans h
  exact ⟨congrArg some (pad27_eq_map hl), rfl⟩

/-- The scroll's window at step `i` is at most one frame wide, past the text's end too (R194). -/
theorem window_length_le (i : Nat) (s : State) : (s.setStep i).window.length ≤ 27 := by
  have hwin : (s.setStep i).window = slice s.buffer (i - 27) i := rfl
  rw [hwin, slice, List.length_drop, List.length_take]
  omega

/-- Settles O29: the frame of a scroll step, cut or not, and the wait after it keep what the step's start has set. -/
theorem scrollStepSetsItsRegisters : Obligations.ScrollStepSetsItsRegisters := by
  intro st i s t r h
  obtain ⟨w, a, hw⟩ := writeFrame_eq_afterEvents st (s.setStep i) (window_length_le i s)
  rw [State.scrollStep, hw] at h
  cases a with
  | ok => cases h; exact ⟨rfl, rfl, rfl, rfl⟩
  | err => cases h; exact ⟨rfl, rfl, rfl, rfl⟩

/-! ## What an operation reads

Everything an operation reads is the configuration, the life value and the coming answers. The state `s'.withInputsOf s`
is `s'` with these taken from `s`; what is said of `s` in terms of them holds of it by definition. -/

/-- `s'` with all that an operation reads taken from `s`. -/
def State.withInputsOf (s' s : State) : State :=
  { s' with cfg := s.cfg, life := s.life, answers := s.answers, draws := s.draws }

theorem State.withInputsOf_self {s s' : State} (hcfg : s'.cfg = s.cfg) (hlife : s'.life = s.life)
    (hanswers : s'.answers = s.answers) (hdraws : s'.draws = s.draws) : s'.withInputsOf s = s' := by
  rw [State.withInputsOf, ← hcfg, ← hlife, ← hanswers, ← hdraws]

theorem sentEvents_withInputsOf (s' s : State) (i : Instr) : sentEvents (s'.withInputsOf s) i = sentEvents s i := by
  cases i <;> rfl

theorem unitEvents_withInputsOf (s' s : State) (i : Instr) : unitEvents (s'.withInputsOf s) i = unitEvents s i := by
  cases i <;> rfl

theorem ShutdownWrites.withInputsOf {s : State} {power blank w : List Event} (h : ShutdownWrites s power blank w)
    (s' : State) : ShutdownWrites (s'.withInputsOf s) power blank w := by
  cases h with
  | all h => exact .all h
  | blankCut k hk h => exact .blankCut k hk h
  | powerCut k hk h hf => exact .powerCut k hk h hf
  | powerCutBlank k hk h hf ha => exact .powerCutBlank k hk h hf ha
  | bothCut k m hk h hf hm ha => exact .bothCut k m hk h hf hm ha

/-- What a request did in `s`, it does in every state with the inputs of `s`. -/
theorem Requested.withInputsOf {i : Instr} {s : State} {w : List Event} {l : Life} {st : Status}
    (h : Requested i s w l st) (s' : State) : Requested i (s'.withInputsOf s) w l st := by
  cases h with
  | contract h => exact .contract h
  | wrongLife hc h => exact .wrongLife hc h
  | configured hi hl h => exact .configured hi hl h
  | configFailed hi hl k hk h => exact .configFailed (s := s'.withInputsOf s) hi hl k hk h
  | sent h1 h2 hc hl h =>
    rw [← sentEvents_withInputsOf s'] at h ⊢
    exact .sent (s := s'.withInputsOf s) h1 h2 hc hl h
  | cut h1 h2 hc hl k hk h =>
    rw [← sentEvents_withInputsOf s'] at hk ⊢
    exact .cut (s := s'.withInputsOf s) h1 h2 hc hl k hk h
  | shutDown hi hl w hw => exact .shutDown (s := s'.withInputsOf s) hi hl w (hw.withInputsOf s')

/-- The answers decide which line writes SHUTDOWN makes: two first failed calls are the same call. -/
theorem ShutdownWrites.unique {s : State} {power blank w w' : List Event} (h : ShutdownWrites s power blank w)
    (h' : ShutdownWrites s power blank w') : w = w' := by
  cases h with
  | all ha =>
    cases h' with
    | all => rfl
    | blankCut k hk he | powerCut k hk he | powerCutBlank k hk he | bothCut k m hk he =>
      exact absurd ha (not_allOk_of_firstErrAt he (by omega))
  | blankCut k hk he =>
    cases h' with
    | all ha => exact absurd ha (not_allOk_of_firstErrAt he (by omega))
    | blankCut k' hk' he' => rw [Nat.add_left_cancel (firstErrAt_unique he he')]
    | powerCut k' hk' he' | powerCutBlank k' hk' he' | bothCut k' m' hk' he' =>
      have := firstErrAt_unique he he'
      omega
  | powerCut k hk he hf =>
    cases h' with
    | all ha => exact absurd ha (not_allOk_of_firstErrAt he (by omega))
    | blankCut k' hk' he' => have := firstErrAt_unique he he'; omega
    | powerCut k' hk' he' => rw [firstErrAt_unique he he']
    | powerCutBlank k' hk' he' hf' | bothCut k' m' hk' he' hf' => simp [hf] at hf'
  | powerCutBlank k hk he hf ha =>
    cases h' with
    | all ha' => exact absurd ha' (not_allOk_of_firstErrAt he (by omega))
    | blankCut k' hk' he' => have := firstErrAt_unique he he'; omega
    | powerCut k' hk' he' hf' => simp [hf] at hf'
    | powerCutBlank k' hk' he' => rw [firstErrAt_unique he he']
    | bothCut k' m' hk' he' _ hm' hb' =>
      obtain rfl := firstErrAt_unique he he'
      exact absurd ha (not_allOk_of_firstErrAt hb' hm')
  | bothCut k m hk he hf hm hb =>
    cases h' with
    | all ha => exact absurd ha (not_allOk_of_firstErrAt he (by omega))
    | blankCut k' hk' he' => have := firstErrAt_unique he he'; omega
    | powerCut k' hk' he' hf' => simp [hf] at hf'
    | powerCutBlank k' hk' he' _ ha' =>
      obtain rfl := firstErrAt_unique he he'
      exact absurd ha' (not_allOk_of_firstErrAt hb hm)
    | bothCut k' m' hk' he' _ hm' hb' =>
      obtain rfl := firstErrAt_unique he he'
      rw [firstErrAt_unique hb hb']

/-- The converse of `exec_host`: a case of `Requested` that holds is what the request does. -/
theorem exec_of_requested {i : Instr} {s : State} {w : List Event} {l : Life} {st : Status}
    (hi : i.isHostRequest = true) (h : Requested i s w l st) :
    exec i s = .next (({ s with life := l }.afterEvents w).responded st) := by
  cases h with
  | contract h => simpa using exec_contract h
  | wrongLife hc h => simpa using exec_wrongLife hi hc h
  | configured hinit hl h => exact hinit ▸ (exec_init hl).1 h
  | configFailed hinit hl k hk h => exact hinit ▸ (exec_init hl).2 k hk h
  | sent h1 h2 hc hl h => rw [State.with_same_life hl]; exact (exec_sends hi h1 h2 hl hc).1 h
  | cut h1 h2 hc hl k hk h => rw [State.with_same_life hl]; exact (exec_sends hi h1 h2 hl hc).2 k hk h
  | shutDown hshut hl w hw =>
    obtain ⟨w', hw', he⟩ := exec_shutdown hl
    rw [hshut, hw.unique hw', he]

/-- Two states with the same inputs make the same of a host request. -/
theorem exec_host_withInputsOf {i : Instr} (hi : i.isHostRequest = true) (s s' : State) :
    ∃ w l st, exec i s = .next (({ s with life := l }.afterEvents w).responded st) ∧
      exec i (s'.withInputsOf s) =
        .next (({ s'.withInputsOf s with life := l }.afterEvents w).responded st) := by
  obtain ⟨w, l, st, hr, he⟩ := exec_host hi s
  exact ⟨w, l, st, he, exec_of_requested hi (hr.withInputsOf s')⟩

/-- Two states with the same inputs make the same of a wire command. -/
theorem exec_unit_withInputsOf {i : Instr} (hi : i.isHostRequest = false) (s s' : State) :
    ∃ w r, exec i s = .next { s.afterEvents w with unitResult := some r } ∧
      exec i (s'.withInputsOf s) = .next { (s'.withInputsOf s).afterEvents w with unitResult := some r } := by
  obtain ⟨hok, herr⟩ := exec_unit hi s
  obtain ⟨hok', herr'⟩ := exec_unit hi (s'.withInputsOf s)
  rw [unitEvents_withInputsOf] at hok' herr'
  rcases allOk_or_firstErr s (callCount (unitEvents s i)) with ha | ⟨k, hk, he⟩
  · exact ⟨_, _, hok ha, hok' ha⟩
  · exact ⟨_, _, herr k hk he, herr' k hk he⟩

/-- Settles O42: the second state is itself with the inputs of the first, and an instruction's new events, life value and
result are the same in both. -/
theorem nothingElsePersistsBetweenRequests : Obligations.NothingElsePersistsBetweenRequests := by
  intro i s s' hcfg hlife hanswers hdraws
  rw [← State.withInputsOf_self hcfg hlife hanswers hdraws]
  cases hi : i.isHostRequest with
  | true =>
    obtain ⟨w, l, st, he, he'⟩ := exec_host_withInputsOf hi s s'
    refine ⟨_, _, w ++ [.resp st], he, he', ?_, ?_, rfl, rfl, rfl, fun _ => rfl, nofun⟩
    · rw [answered_trace, List.append_assoc]
    · rw [answered_trace, List.append_assoc]
  | false =>
    obtain ⟨w, r, he, he'⟩ := exec_unit_withInputsOf hi s s'
    exact ⟨_, _, w, he, he', State.afterEvents_trace .., State.afterEvents_trace .., rfl, rfl, rfl, nofun, fun _ => rfl⟩

end Sys2Proof.Machine
end

