-- ==== Sys2Proof/Proofs/Memory.lean ====
section
/-! The frame register, the wire frame's bit order and the order of the two units (20_memory.md): what WRITE_FRAME sends,
that bits 7:5 of a byte are never sent, where each bit of a wire frame stands, and that the left unit comes first. -/

namespace Sys2Proof.Machine

/-! ## A screen frame (R42) -/

/-- A screen frame is calls only, so it has as many events as calls (R68). -/
theorem screenEvents_length (col : Nat → Byte) (st : Byte) : (screenEvents col st).length = 724 := by
  rw [← callCount_of_writes (screenEvents_writes col st), callCount_screenEvents]

/-- Settles O23: the law of the line requests, whose contract for WRITE_FRAME is the bound of 27 bytes. -/
theorem writeFrameSendsOneScreenFrame : Obligations.WriteFrameSendsOneScreenFrame := by
  intro st bytes hlen
  exact ⟨fun s hlife => exec_sends (i := .writeFrame st bytes) rfl nofun nofun hlife hlen, screenEvents_length _ st⟩

/-! ## Bits 7:5 are dropped (R43)

A wire frame reads its data bytes at bits 4:0 only, so its events are a function of the data bytes' wire bits. -/

/-- The wire bits of a byte are its bits 4:0. -/
theorem getLsbD_wireBits (v : Byte) {j : Nat} (hj : j < 5) : (wireBits v).getLsbD j = v.getLsbD j := by
  simp [wireBits, hj]

/-- The wire bits of a data byte, zero past the end. -/
theorem wireBits_getD (d : List Byte) (i : Nat) : wireBits (d.getD i 0) = (d.map wireBits).getD i 0 :=
  (List.getD_map ..).symm

theorem getLsbD_getD_congr {d d' : List Byte} (h : d.map wireBits = d'.map wireBits) (i : Nat) {j : Nat} (hj : j < 5) :
    (d.getD i 0).getLsbD j = (d'.getD i 0).getLsbD j := by
  rw [← getLsbD_wireBits _ hj, ← getLsbD_wireBits _ hj, wireBits_getD, wireBits_getD, h]

theorem slotBit_congr (cmd : Byte) {d d' : List Byte} (h : d.map wireBits = d'.map wireBits) (k : Nat) :
    slotBit cmd d k = slotBit cmd d' k := by
  unfold slotBit
  split_ifs
  · rfl
  · exact getLsbD_getD_congr h _ ‹_›
  · exact getLsbD_getD_congr h _ (by omega)
  · rfl

theorem frameEvents_congr (stb : Pin) (cmd : Byte) {d d' : List Byte} (h : d.map wireBits = d'.map wireBits) :
    frameEvents stb cmd d = frameEvents stb cmd d' := by
  have hlen : d.length = d'.length := by simpa using congrArg List.length h
  simp only [frameEvents, frameBits, hlen, funext (slotBit_congr cmd h)]

theorem screenEvents_congr {col col' : Nat → Byte} {st st' : Byte} (hcol : ∀ c, wireBits (col c) = wireBits (col' c))
    (hst : wireBits st = wireBits st') : screenEvents col st = screenEvents col' st' := by
  have hleft : ((List.range 14).map col).map wireBits = ((List.range 14).map col').map wireBits := by
    simp [hcol]
  have hright : ((List.range 13).map (fun j => col (14 + j)) ++ [st]).map wireBits =
      ((List.range 13).map (fun j => col' (14 + j)) ++ [st']).map wireBits := by
    simp [hcol, hst]
  rw [screenEvents, screenEvents, frameEvents_congr _ _ hleft, frameEvents_congr _ _ hright]

theorem plainColumn_congr {bytes bytes' : List Byte} (h : bytes.map wireBits = bytes'.map wireBits) (c : Nat) :
    wireBits (plainColumn bytes c) = wireBits (plainColumn bytes' c) := by
  rw [plainColumn, plainColumn, wireBits_getD, wireBits_getD, h]

theorem scrollEvents_congr (buf : List Byte) {st st' : Byte} (hst : wireBits st = wireBits st') :
    scrollEvents buf st = scrollEvents buf st' := by
  simp only [scrollEvents, screenEvents_congr (fun _ => rfl) hst]

/-- Every request but INIT is allowed in READY only (R224). -/
theorem neededLife_of_ne_init {i : Instr} (h : i ≠ .init) : neededLife i = .ready := by
  cases i with
  | init => exact absurd rfl h
  | _ => rfl

/-- What a line request does is decided by its contract and by what it sends: it answers `ERR_CONTRACT` or `ERR_STATE`,
or sends its events as far as the line driver's answers allow. -/
theorem exec_congr {i i' : Instr} {s : State} (hi : i.isHostRequest = true) (hi' : i'.isHostRequest = true)
    (hinit : i ≠ .init) (hinit' : i' ≠ .init) (hshut : i ≠ .shutdown) (hshut' : i' ≠ .shutdown)
    (hcontract : contractMet s.cfg i ↔ contractMet s.cfg i') (hsent : sentEvents s i = sentEvents s i') :
    exec i s = exec i' s := by
  obtain ⟨w, l, st, hr, he⟩ := exec_host hi s
  rw [he, exec_of_requested hi']
  cases hr with
  | contract h => exact .contract (mt hcontract.mpr h)
  | wrongLife hc h =>
    rw [neededLife_of_ne_init hinit, ← neededLife_of_ne_init hinit'] at h
    exact .wrongLife (hcontract.mp hc) h
  | configured h | configFailed h => exact absurd h hinit
  | sent _ _ hc hl h => exact hsent ▸ .sent hinit' hshut' (hcontract.mp hc) hl (hsent ▸ h)
  | cut _ _ hc hl k hk h => exact hsent ▸ .cut hinit' hshut' (hcontract.mp hc) hl k (hsent ▸ hk) h
  | shutDown h => exact absurd h hshut

/-- Settles O25: equal wire bits give equal events, for the columns and status byte of a frame and for RENDER's status
byte on both of its paths. -/
theorem topBitsNeverReachTheWire : Obligations.TopBitsNeverReachTheWire := by
  intro st st' s hst
  constructor
  · intro bytes bytes' hbytes
    have hlen : bytes.length = bytes'.length := by simpa using congrArg List.length hbytes
    exact exec_congr rfl rfl nofun nofun nofun nofun (by simp only [contractMet, hlen])
      (screenEvents_congr (plainColumn_congr hbytes) hst)
  · intro text
    refine exec_congr rfl rfl nofun nofun nofun nofun .rfl ?_
    simp only [sentEvents, screenEvents_congr (fun _ => rfl) hst, scrollEvents_congr _ hst]

/-! ## Where each bit stands (R44, R60) -/

/-- A frame's calls are its strobe edges around its slots. -/
theorem frame_eq_slots (stb : Pin) (cmd : Byte) (d : List Byte) :
    frame stb cmd d = .setLevel stb false :: ((frameBits cmd d).flatMap emitBit ++ [.setLevel stb true]) := by
  rw [frame_eq, frame_bits]

@[simp] theorem emitBit_length (b : Bool) : (emitBit b).length = 3 := rfl

/-- Slot `k` of a row of slots is its calls `3k` to `3k + 2`. -/
theorem flatMap_emitBit_getElem? {bs : List Bool} {k j : Nat} (hk : k < bs.length) (hj : j < 3) :
    (bs.flatMap emitBit)[3 * k + j]? = (emitBit bs[k])[j]? := by
  induction bs generalizing k with
  | nil => cases hk
  | cons b bs ih =>
    rw [List.flatMap_cons]
    cases k with
    | zero => rw [List.getElem?_append_left (by simpa using hj), Nat.mul_zero, Nat.zero_add, List.getElem_cons_zero]
    | succ k =>
      rw [List.getElem?_append_right (by rw [emitBit_length]; omega), List.getElem_cons_succ,
        ← ih (Nat.lt_of_succ_lt_succ hk), emitBit_length, show 3 * (k + 1) + j - 3 = 3 * k + j by omega]

/-- Slot `k` of a frame is its calls `1 + 3k` to `3 + 3k`, and it carries the layout's bit. -/
theorem frame_getElem?_slot (stb : Pin) (cmd : Byte) (d : List Byte) {k j : Nat}
    (hk : k < slotCount (min d.length 14)) (hj : j < 3) :
    (frame stb cmd d)[1 + 3 * k + j]? = (emitBit (slotBit cmd d k))[j]? := by
  have hlen : k < (frameBits cmd d).length := by rwa [frameBits_length]
  have hcalls : ((frameBits cmd d).flatMap emitBit).length = 3 * (frameBits cmd d).length := by
    simp [List.length_flatMap, Nat.mul_comm]
  rw [frame_eq_slots, show 1 + 3 * k + j = (3 * k + j) + 1 by omega, List.getElem?_cons_succ,
    List.getElem?_append_left (by omega), flatMap_emitBit_getElem? hlen hj]
  simp [frameBits]

/-- The command bits come first (R67). -/
theorem slotBit_command (cmd : Byte) (d : List Byte) {k : Nat} (hk : k < 8) : slotBit cmd d k = cmd.getLsbD k :=
  if_pos hk

/-- Data byte `i` starts at slot `dataStart i` (R44). -/
theorem slotBit_data (cmd : Byte) (d : List Byte) (i : Nat) {b : Nat} (hb : b < 5) :
    slotBit cmd d (dataStart i + b) = (d.getD i 0).getLsbD b := by
  have hslot : dataStart i + b - 8 = 16 * (i / 2) + (5 * (i % 2) + b) := by simp only [dataStart]; omega
  have hdiv : (dataStart i + b - 8) / 16 = i / 2 := by omega
  have hmod : (dataStart i + b - 8) % 16 = 5 * (i % 2) + b := by omega
  have hdata : ¬ dataStart i + b < 8 := by simp only [dataStart]; omega
  rw [slotBit, if_neg hdata, hdiv, hmod]
  rcases Nat.mod_two_eq_zero_or_one i with heven | hodd
  · rw [heven, if_pos (by omega), show 2 * (i / 2) = i by omega]
    simp
  · rw [hodd, if_neg (by omega), if_pos (by omega), show 2 * (i / 2) + 1 = i by omega]
    simp

/-- The last 6 slots of each pair of data bytes are zero (R105). -/
theorem slotBit_padding (cmd : Byte) (d : List Byte) (m : Nat) {z : Nat} (hz : z < 6) :
    slotBit cmd d (8 + 16 * m + 10 + z) = false := by
  have hmod : (8 + 16 * m + 10 + z - 8) % 16 = 10 + z := by omega
  rw [slotBit, if_neg (by omega), hmod, if_neg (by omega), if_neg (by omega)]

/-- The slots of a data byte lie in the frame. -/
theorem dataStart_add_lt_slotCount {i n b : Nat} (hi : i < n) (hb : b < 5) : dataStart i + b < slotCount n := by
  simp only [dataStart, slotCount]; omega

/-- The padding of an odd data byte lies in the frame. -/
theorem padding_lt_slotCount {i n z : Nat} (hi : i < n) (hodd : i % 2 = 1) (hz : z < 6) :
    8 + 16 * (i / 2) + 10 + z < slotCount n := by
  simp only [slotCount]; omega

/-- Settles O45: each slot's three calls carry the layout's bit, and the layout's bit at each of these slots is the one
asked for. -/
theorem slotPositions : Obligations.SlotPositions := by
  intro stb cmd d call slot
  have hslot : ∀ k < slotCount (min d.length 14), slot k (slotBit cmd d k) := fun k hk =>
    ⟨frame_getElem?_slot stb cmd d hk (j := 0) (by decide), frame_getElem?_slot stb cmd d hk (j := 1) (by decide),
      frame_getElem?_slot stb cmd d hk (j := 2) (by decide)⟩
  refine ⟨frame_length stb cmd d, ?_, ?_, ?_, ?_, ?_⟩
  · simp only [call, frame_eq_slots, List.getElem?_cons_zero]
  · rw [frame_eq_slots, ← List.cons_append, List.getLast?_concat]
  · intro k hk
    rw [← slotBit_command cmd d hk]
    exact hslot k (by simp only [slotCount]; omega)
  · intro i hi b hb
    rw [← slotBit_data cmd d i hb]
    exact hslot _ (dataStart_add_lt_slotCount hi hb)
  · intro i hi hodd z hz
    rw [← slotBit_padding cmd d (i / 2) hz]
    exact hslot _ (padding_lt_slotCount hi hodd hz)

/-! ## The left unit comes first (R50) -/

/-- The pin an event writes. -/
def Event.writtenPin : Event → Option Pin
  | .lvl p _ _ => some p
  | _ => none

/-- No event of the list writes the pin. -/
def NoWrite (p : Pin) (es : List Event) : Prop := ∀ e ∈ es, e.writtenPin ≠ some p

theorem Event.failed_writtenPin (e : Event) : e.failed.writtenPin = e.writtenPin := by cases e <;> rfl

theorem NoWrite.lvl_notMem {p : Pin} {es : List Event} (h : NoWrite p es) (b : Bool) (r : Answer) :
    Event.lvl p b r ∉ es :=
  fun hmem => h _ hmem rfl

theorem NoWrite.cut {p : Pin} {es : List Event} (h : NoWrite p es) {k : Nat} (hk : k < callCount es) :
    NoWrite p (cutAtCall k es) :=
  mem_cut h hk fun e he => e.failed_writtenPin ▸ he

/-- A wire frame writes the shared lines and its own strobe only (R31). -/
theorem frameEvents_noWrite {p stb : Pin} (hclk : p ≠ .clk) (hdio : p ≠ .dio) (hstb : p ≠ stb) (cmd : Byte)
    (d : List Byte) : NoWrite p (frameEvents stb cmd d) := by
  intro e he
  simp only [frameEvents, List.mem_cons, List.mem_append, List.mem_flatMap, slotEvents, List.not_mem_nil,
    or_false] at he
  rcases he with rfl | ⟨b, -, rfl | rfl | rfl⟩ | rfl <;> simp [Event.writtenPin, Ne.symm, *]

theorem leftFrame_noWrite (cmd : Byte) (d : List Byte) : NoWrite .stbR (frameEvents .stbL cmd d) :=
  frameEvents_noWrite (by decide) (by decide) (by decide) cmd d

theorem rightFrame_noWrite (cmd : Byte) (d : List Byte) : NoWrite .stbL (frameEvents .stbR cmd d) :=
  frameEvents_noWrite (by decide) (by decide) (by decide) cmd d

theorem NoWrite.append {p : Pin} {v w : List Event} (hv : NoWrite p v) (hw : NoWrite p w) : NoWrite p (v ++ w) :=
  fun e he => (List.mem_append.mp he).elim (hv e) (hw e)

theorem noWrite_nil (p : Pin) : NoWrite p [] := nofun

/-- INIT only configures pins (R141). -/
theorem initEvents_noWrite (p : Pin) : NoWrite p initEvents := by
  intro e he
  have hconfig : e.isConfig = true := (show ∀ e ∈ initEvents, e.isConfig = true by decide) e he
  cases e with
  | lvl => cases hconfig
  | _ => nofun

/-- A release is no line write. -/
theorem releaseEvents_noWrite (p : Pin) (s : State) (w : List Event) : NoWrite p (releaseEvents s w) := by
  intro e he
  have hpin : e.releasedPin ∈ releaseOrder.map some := releaseEvents_pins s w ▸ List.mem_map_of_mem he
  cases e with
  | rel => nofun
  | _ => simp [Event.releasedPin] at hpin

/-- The right unit's strobe is not written, or it is written only behind a whole frame of the left unit. -/
inductive LeftFirst (w : List Event) : Prop
  | unwritten (h : NoWrite .stbR w)
  | behindFrame (v cmd d q) (hv : NoWrite .stbR v) (h : w = v ++ frameEvents .stbL cmd d ++ q)

/-- A whole frame of the left unit stands before every write of the right unit's strobe: the part up to that frame's end
has no such write, so it ends before it. -/
theorem LeftFirst.frame_before {p q : List Event} {b : Bool} {r : Answer}
    (h : LeftFirst (p ++ .lvl .stbR b r :: q)) : ∃ p₁ cmd d p₂, p = p₁ ++ frameEvents .stbL cmd d ++ p₂ := by
  cases h with
  | unwritten h => exact absurd (List.mem_append_right p List.mem_cons_self) (h.lvl_notMem b r)
  | behindFrame v cmd d q' hv h =>
    have hfirst : NoWrite .stbR (v ++ frameEvents .stbL cmd d) := hv.append (leftFrame_noWrite cmd d)
    rcases List.append_eq_append_iff.mp h with ⟨a, ha, hrest⟩ | ⟨a, ha, -⟩
    · cases a with
      | nil => exact ⟨v, cmd, d, [], by simpa using ha.symm⟩
      | cons e a =>
        obtain ⟨rfl, -⟩ := List.cons.inj hrest
        exact absurd (ha ▸ List.mem_append_right p List.mem_cons_self) (hfirst.lvl_notMem b r)
    · exact ⟨v, cmd, d, a, ha⟩

theorem LeftFirst.append {v w : List Event} (hv : LeftFirst v) (hw : LeftFirst w) : LeftFirst (v ++ w) := by
  cases hv with
  | behindFrame v' cmd d q h hv => exact .behindFrame v' cmd d (q ++ w) h (by rw [hv, List.append_assoc])
  | unwritten hv =>
    cases hw with
    | unwritten hw => exact .unwritten (hv.append hw)
    | behindFrame w' cmd d q h hw =>
      exact .behindFrame (v ++ w') cmd d q (hv.append h) (by rw [hw]; simp only [List.append_assoc])

theorem LeftFirst.flatMap {α : Type} {f : α → List Event} (h : ∀ a, LeftFirst (f a)) :
    ∀ l : List α, LeftFirst (l.flatMap f)
  | [] => .unwritten (noWrite_nil _)
  | a :: l => (h a).append (LeftFirst.flatMap h l)

/-- A failed call ends the events in that first part, or behind the left frame. -/
theorem LeftFirst.cut {w : List Event} (h : LeftFirst w) {k : Nat} (hk : k < callCount w) :
    LeftFirst (cutAtCall k w) := by
  cases h with
  | unwritten h => exact .unwritten (h.cut hk)
  | behindFrame v cmd d q hv h =>
    subst h
    by_cases hka : k < callCount (v ++ frameEvents .stbL cmd d)
    · rw [cutAtCall_append_left _ _ hka]
      exact .unwritten ((hv.append (leftFrame_noWrite cmd d)).cut hka)
    · obtain ⟨m, rfl⟩ := Nat.exists_eq_add_of_le (Nat.le_of_not_lt hka)
      exact .behindFrame v cmd d _ hv (cutAtCall_append_right _ _ m)

theorem leftFrame_append_leftFirst (cmd : Byte) (d : List Byte) (q : List Event) :
    LeftFirst (frameEvents .stbL cmd d ++ q) :=
  .behindFrame [] cmd d q (noWrite_nil _) rfl

theorem bothCommand_leftFirst (cmd : Byte) : LeftFirst (bothCommand cmd) := leftFrame_append_leftFirst ..

theorem screenEvents_leftFirst (col : Nat → Byte) (st : Byte) : LeftFirst (screenEvents col st) :=
  leftFrame_append_leftFirst ..

theorem scrollEvents_leftFirst (buf : List Byte) (st : Byte) : LeftFirst (scrollEvents buf st) :=
  .flatMap (fun _ => (screenEvents_leftFirst _ st).append (.unwritten (by simp [NoWrite, Event.writtenPin]))) _

theorem sentEvents_leftFirst (s : State) (i : Instr) : LeftFirst (sentEvents s i) := by
  cases i with
  | setDisplayMode | setDataMode | setPowerOff | setPowerOn => exact bothCommand_leftFirst _
  | writeFrame => exact screenEvents_leftFirst _ _
  | render st text =>
    rw [sentEvents]
    split
    · exact screenEvents_leftFirst _ _
    · exact scrollEvents_leftFirst _ _
  | _ => exact .unwritten (noWrite_nil _)

/-- SHUTDOWN's two pairs of frames, each of them whole or cut (R147). -/
theorem ShutdownWrites.leftFirst {s : State} {w : List Event} (h : ShutdownWrites s (bothCommand 0x80) blankEvents w) :
    LeftFirst w := by
  have hpower := bothCommand_leftFirst 0x80
  have hblank := screenEvents_leftFirst (fun _ => 0) 0
  cases h with
  | all => exact hpower.append hblank
  | blankCut k hk => exact hpower.append (hblank.cut hk)
  | powerCut k hk => exact hpower.cut hk
  | powerCutBlank k hk => exact (hpower.cut hk).append hblank
  | bothCut k m hk _ _ hm => exact (hpower.cut hk).append (hblank.cut hm)

/-- What holds of every host request (R50). -/
theorem Requested.leftFirst {i : Instr} {s : State} {w : List Event} {l : Life} {st : Status}
    (h : Requested i s w l st) : LeftFirst w := by
  cases h with
  | contract | wrongLife => exact .unwritten (noWrite_nil _)
  | configured => exact .unwritten (initEvents_noWrite _)
  | configFailed _ _ k hk => exact .unwritten ((initEvents_noWrite _).cut hk)
  | sent => exact sentEvents_leftFirst s i
  | cut _ _ _ _ k hk => exact (sentEvents_leftFirst s i).cut hk
  | shutDown _ _ w hw =>
    have hrelH : NoWrite .stbR [Event.relH] := by simp [NoWrite, Event.writtenPin]
    exact hw.leftFirst.append (.unwritten (hrelH.append (releaseEvents_noWrite _ s w)))

/-- A request of one pair of frames sends a left frame and a right frame (R142 to R144, R146). -/
theorem sentEvents_onePair {i : Instr} (h : sendsOnePair i = true) (s : State) :
    ∃ cmd d cmd' d', sentEvents s i = frameEvents .stbL cmd d ++ frameEvents .stbR cmd' d' := by
  cases i with
  | setDisplayMode | setDataMode | setPowerOff | setPowerOn | writeFrame => exact ⟨_, _, _, _, rfl⟩
  | _ => cases h

/-- Such a request does not reach the right unit's strobe, or it writes the left unit's strobe in its left frame
only. -/
theorem Requested.onePair {i : Instr} {s : State} {w : List Event} {l : Life} {st : Status} (h : Requested i s w l st)
    (hpair : sendsOnePair i = true) :
    NoWrite .stbR w ∨ ∃ cmd d q, w = frameEvents .stbL cmd d ++ q ∧ NoWrite .stbL q := by
  obtain ⟨cmd, d, cmd', d', hsent⟩ := sentEvents_onePair hpair s
  cases h with
  | contract | wrongLife => exact .inl (noWrite_nil _)
  | configured hi | configFailed hi | shutDown hi => subst hi; cases hpair
  | sent => exact .inr ⟨cmd, d, _, hsent, rightFrame_noWrite cmd' d'⟩
  | cut _ _ _ _ k hk =>
    rw [hsent] at hk ⊢
    by_cases hka : k < callCount (frameEvents .stbL cmd d)
    · rw [cutAtCall_append_left _ _ hka]
      exact .inl ((leftFrame_noWrite cmd d).cut hka)
    · obtain ⟨m, rfl⟩ := Nat.exists_eq_add_of_le (Nat.le_of_not_lt hka)
      rw [callCount_append] at hk
      exact .inr ⟨cmd, d, _, cutAtCall_append_right _ _ m, (rightFrame_noWrite cmd' d').cut (by omega)⟩

/-- The events between the old trace and the response are those of the request's case. -/
theorem requested_of_trace {i : Instr} {s t : State} {w : List Event} {st : Status} (hi : i.isHostRequest = true)
    (h : exec i s = .next t) (ht : t.trace = s.trace ++ w ++ [.resp st]) : ∃ l, Requested i s w l st := by
  obtain ⟨w', l, st', hr, rfl⟩ := host_next hi h
  rw [answered_trace] at ht
  obtain ⟨hw, hst⟩ := List.append_inj' ht rfl
  obtain rfl := List.append_cancel_left hw
  cases hst
  exact ⟨l, hr⟩

/-- Settles O40: both clauses are properties of every case of a request. -/
theorem leftFrameComesFirst : Obligations.LeftFrameComesFirst := by
  intro i s t w st hi h ht
  obtain ⟨l, hr⟩ := requested_of_trace hi h ht
  constructor
  · rintro p b r q rfl
    exact hr.leftFirst.frame_before
  · rintro hpair ⟨b, r, hmem⟩
    rcases hr.onePair hpair with hnone | ⟨cmd, d, q, hw, hq⟩
    · exact absurd hmem (hnone.lvl_notMem b r)
    · exact ⟨cmd, d, q, hw, hq.lvl_notMem⟩

end Sys2Proof.Machine
end

