-- ==== Sys2Proof/Proofs/Encoding.lean ====
section
/-! The encodings (30_encoding.md): exactly the legal host requests decode, each as the instruction it encodes; wire
commands and frames tell their contents apart; how long a frame is; and what requests that fail a check are answered. -/

namespace Sys2Proof

/-! ## The header's four bytes (R70) -/

/-- Byte 0 is `OP`, `ON` and `RSV`. -/
theorem headerByte_toNat (b : Byte) :
    b.toNat % 16 + 16 * (b.getLsbD 4).toNat + 32 * (b.toNat / 32) = b.toNat := by
  have hon : (b.getLsbD 4).toNat = b.toNat / 2 ^ 4 % 2 := Nat.toNat_testBit ..
  omega

/-- A byte 0 that is written from `OP` and `ON` has `ON` at bit 4. -/
theorem getLsbD_headerByte {op : Nat} (hop : op < 16) (on : Bool) :
    (BitVec.ofNat 8 (op + 16 * on.toNat)).getLsbD 4 = on := by
  have hle := Bool.toNat_le on
  have hon : ((BitVec.ofNat 8 (op + 16 * on.toNat)).getLsbD 4).toNat = on.toNat := by
    rw [BitVec.getLsbD, Nat.toNat_testBit, BitVec.toNat_ofNat]
    omega
  cases on <;> simpa using hon

theorem readHeader_headerBytes {op count : Nat} (hop : op < 16) (on : Bool) (arg : Byte) (hcount : count ≤ 65535) :
    readHeader (BitVec.ofNat 8 (op + 16 * on.toNat)) arg (BitVec.ofNat 8 count) (BitVec.ofNat 8 (count / 256)) =
      ⟨op, on, 0, arg, count⟩ := by
  have hle := Bool.toNat_le on
  simp only [readHeader, getLsbD_headerByte hop, BitVec.toNat_ofNat, Header.mk.injEq, true_and]
  omega

theorem headerBytes_readHeader {b0 b1 b2 b3 : Byte} (hrsv : (readHeader b0 b1 b2 b3).rsv = 0) :
    headerBytes (readHeader b0 b1 b2 b3).op (readHeader b0 b1 b2 b3).on (readHeader b0 b1 b2 b3).arg
      (readHeader b0 b1 b2 b3).count = [b0, b1, b2, b3] := by
  have hrsv : b0.toNat / 32 = 0 := hrsv
  have h0 := headerByte_toNat b0
  have h2 := b2.isLt
  have h3 := b3.isLt
  simp only [headerBytes, readHeader, List.cons.injEq, true_and, and_true]
  refine ⟨BitVec.eq_of_toNat_eq ?_, BitVec.eq_of_toNat_eq ?_, BitVec.eq_of_toNat_eq ?_⟩ <;>
    rw [BitVec.toNat_ofNat] <;> omega

/-- `N` has 16 bits. -/
theorem readHeader_count_le (b0 b1 b2 b3 : Byte) : (readHeader b0 b1 b2 b3).count ≤ maxCount := by
  have h2 := b2.isLt
  have h3 := b3.isLt
  simp only [readHeader, maxCount]
  omega

/-- `OP` is byte 0's bits 3:0. -/
theorem readHeader_op_eq (b0 b1 b2 b3 : Byte) : (readHeader b0 b1 b2 b3).op = (b0.extractLsb' 0 4).toNat := by
  simp [readHeader, BitVec.extractLsb'_toNat]

/-- `RSV` is byte 0's bits 7:5. -/
theorem readHeader_rsv_eq_zero_iff (b0 b1 b2 b3 : Byte) :
    (readHeader b0 b1 b2 b3).rsv = 0 ↔ b0.extractLsb' 5 3 = 0 := by
  have h0 := b0.isLt
  rw [← BitVec.toNat_inj, BitVec.extractLsb'_toNat, Nat.shiftRight_eq_div_pow]
  simp only [readHeader, BitVec.ofNat_eq_ofNat, BitVec.toNat_ofNat]
  omega

/-! ## The scalars of a RENDER (R71) -/

/-- Scalar `k` of a payload, zero past its end. -/
def scalarAt (p : List Byte) (k : Nat) : Nat :=
  (p.getD (4 * k) 0).toNat + 2 ^ 8 * (p.getD (4 * k + 1) 0).toNat + 2 ^ 16 * (p.getD (4 * k + 2) 0).toNat +
    2 ^ 24 * (p.getD (4 * k + 3) 0).toNat

/-- A payload of `n + 1` scalars is four bytes and a payload of `n`. -/
theorem exists_four_bytes {p : List Byte} {n : Nat} (h : p.length = 4 * (n + 1)) :
    ∃ b0 b1 b2 b3 rest, p = b0 :: b1 :: b2 :: b3 :: rest ∧ rest.length = 4 * n := by
  match p with
  | b0 :: b1 :: b2 :: b3 :: rest => exact ⟨b0, b1, b2, b3, rest, rfl, by simp only [List.length_cons] at h; omega⟩
  | [] | [_] | [_, _] | [_, _, _] => simp only [List.length_cons, List.length_nil] at h; omega

theorem scalarsOf_eq_map {p : List Byte} {n : Nat} (h : p.length = 4 * n) :
    scalarsOf p = (List.range n).map (scalarAt p) := by
  induction n generalizing p with
  | zero => rw [List.length_eq_zero_iff.mp h]; rfl
  | succ n ih =>
    obtain ⟨b0, b1, b2, b3, rest, rfl, hrest⟩ := exists_four_bytes h
    rw [scalarsOf, ih hrest, List.range_succ_eq_map, List.map_cons, List.map_map]
    rfl

theorem length_scalarsOf {p : List Byte} {n : Nat} (h : p.length = 4 * n) : (scalarsOf p).length = n := by
  simp [scalarsOf_eq_map h]

theorem forall_mem_scalarsOf {p : List Byte} {n : Nat} (h : p.length = 4 * n) {P : Nat → Prop} :
    (∀ c ∈ scalarsOf p, P c) ↔ ∀ k < n, P (scalarAt p k) := by
  simp [scalarsOf_eq_map h]

theorem length_flatMap_scalarBytes (text : List Nat) : (text.flatMap scalarBytes).length = 4 * text.length := by
  simp [List.length_flatMap, scalarBytes, Nat.mul_comm]

theorem scalarBytes_of_bytes (b0 b1 b2 b3 : Byte) :
    scalarBytes (b0.toNat + 2 ^ 8 * b1.toNat + 2 ^ 16 * b2.toNat + 2 ^ 24 * b3.toNat) = [b0, b1, b2, b3] := by
  have h0 := b0.isLt
  have h1 := b1.isLt
  have h2 := b2.isLt
  have h3 := b3.isLt
  simp only [scalarBytes, List.cons.injEq, and_true]
  refine ⟨BitVec.eq_of_toNat_eq ?_, BitVec.eq_of_toNat_eq ?_, BitVec.eq_of_toNat_eq ?_, BitVec.eq_of_toNat_eq ?_⟩ <;>
    rw [BitVec.toNat_ofNat] <;> omega

theorem scalarsOf_scalarBytes_append {c : Nat} (hc : c < 2 ^ 32) (p : List Byte) :
    scalarsOf (scalarBytes c ++ p) = c :: scalarsOf p := by
  simp only [scalarBytes, List.cons_append, List.nil_append, scalarsOf, BitVec.toNat_ofNat, List.cons.injEq, and_true]
  omega

theorem flatMap_scalarBytes_scalarsOf {p : List Byte} {n : Nat} (h : p.length = 4 * n) :
    (scalarsOf p).flatMap scalarBytes = p := by
  induction n generalizing p with
  | zero => rw [List.length_eq_zero_iff.mp h]; rfl
  | succ n ih =>
    obtain ⟨b0, b1, b2, b3, rest, rfl, hrest⟩ := exists_four_bytes h
    rw [scalarsOf, List.flatMap_cons, ih hrest, scalarBytes_of_bytes]
    rfl

theorem scalarsOf_flatMap_scalarBytes {text : List Nat} (h : ∀ c ∈ text, isScalar c) :
    scalarsOf (text.flatMap scalarBytes) = text := by
  induction text with
  | nil => rfl
  | cons c text ih =>
    obtain ⟨hc, htext⟩ := List.forall_mem_cons.mp h
    rw [List.flatMap_cons, scalarsOf_scalarBytes_append (by unfold isScalar at hc; omega), ih htext]

/-! ## The header and the payload of a request (R71, R72) -/

/-- The header that a host request is sent with; a wire command has none, and gets the reserved `OP` 0. -/
def Instr.header : Instr → Header
  | .init => ⟨1, false, 0, 0, 0⟩
  | .setDisplayMode => ⟨2, false, 0, 0, 0⟩
  | .setDataMode => ⟨3, false, 0, 0, 0⟩
  | .setPowerOff b => ⟨4, false, 0, b, 0⟩
  | .setPowerOn b => ⟨4, true, 0, b, 0⟩
  | .writeFrame st bytes => ⟨5, false, 0, st, bytes.length⟩
  | .render st text => ⟨6, false, 0, st, text.length⟩
  | .shutdown => ⟨7, false, 0, 0, 0⟩
  | _ => ⟨0, false, 0, 0, 0⟩

/-- The payload of a host request. -/
def Instr.payload : Instr → List Byte
  | .writeFrame _ bytes => bytes
  | .render _ text => text.flatMap scalarBytes
  | _ => []

theorem encode_eq_header_payload (c : Config) {i : Instr} (hi : i.isHostRequest = true) :
    encode c i = headerBytes i.header.op i.header.on i.header.arg i.header.count ++ i.payload := by
  cases i with
  | cmdDisplayMode | cmdDataMode | cmdAddrWrite | cmdPowerOn | cmdPowerOff => cases hi
  | _ => rfl

theorem Instr.wf_writeFrame_iff {st : Byte} {bytes : List Byte} :
    (Instr.writeFrame st bytes).wf = true ↔ bytes.length ≤ maxCount := decide_eq_true_iff

theorem Instr.wf_render_iff {st : Byte} {text : List Nat} :
    (Instr.render st text).wf = true ↔ text.length ≤ maxCount ∧ ∀ c ∈ text, isScalar c := by
  simp only [Instr.wf, Bool.and_eq_true, decide_eq_true_iff, List.all_eq_true]

/-- The payload of a well-formed request is counted in the 16 bits of `N`. -/
theorem Instr.header_count_le {i : Instr} (hw : i.wf = true) : i.header.count ≤ maxCount := by
  cases i with
  | writeFrame => exact wf_writeFrame_iff.mp hw
  | render => exact (wf_render_iff.mp hw).1
  | _ => exact Nat.zero_le _

/-! ## The checks (R73) -/

/-- The header and payload pass checks 1 to 7. -/
structure Header.Legal (h : Header) (p : List Byte) : Prop where
  length : p.length = payloadLength h.op h.count
  op : 1 ≤ h.op ∧ h.op ≤ 7
  rsv : h.rsv = 0
  on : h.on = true → h.op = 4
  arg : h.arg ≠ 0 → h.op = 4 ∨ h.op = 5 ∨ h.op = 6
  count : h.count ≠ 0 → h.op = 5 ∨ h.op = 6
  scalars : h.op = 6 → ∀ c ∈ scalarsOf p, isScalar c

theorem Header.firstFailedCheck_eq_none_iff {h : Header} {p : List Byte} :
    h.firstFailedCheck p = none ↔ h.Legal p := by
  unfold Header.firstFailedCheck
  constructor
  · intro hnone
    split_ifs at hnone with hlen hop hrsv hon harg hcount hscalar
    have hon (h1 : h.on = true) : h.op = 4 := not_not.mp (not_and.mp hon h1)
    have harg (hne : h.arg ≠ 0) : h.op = 4 ∨ h.op = 5 ∨ h.op = 6 := by have := not_and.mp harg hne; omega
    have hscalar (h6 : h.op = 6) := not_not.mp (not_and.mp hscalar h6)
    exact ⟨by omega, by omega, by omega, hon, harg, by omega, hscalar⟩
  · rintro ⟨hlen, hop, hrsv, hon, harg, hcount, hscalar⟩
    have hon : ¬ (h.on = true ∧ h.op ≠ 4) := fun ⟨h1, h4⟩ => h4 (hon h1)
    have harg : ¬ (h.arg ≠ 0 ∧ (h.op = 1 ∨ h.op = 2 ∨ h.op = 3 ∨ h.op = 7)) := fun ⟨hne, hbare⟩ => by
      have := harg hne; omega
    have hscalar : ¬ (h.op = 6 ∧ ¬ ∀ c ∈ scalarsOf p, isScalar c) := fun ⟨h6, hbad⟩ => hbad (hscalar h6)
    rw [if_neg (by omega), if_neg (by omega), if_neg (by omega), if_neg hon, if_neg harg, if_neg (by omega),
      if_neg hscalar]

theorem decodeRequest_eq_illegal_of_short {bytes : List Byte} (h : bytes.length < 4) :
    decodeRequest bytes = .illegal .tooShort := by
  match bytes with
  | [] | [_] | [_, _] | [_, _, _] => rfl
  | _ :: _ :: _ :: _ :: _ => simp only [List.length_cons] at h; omega

/-- The scalars of a RENDER payload of the right length are `N` in number. -/
theorem Header.scalars_iff {h : Header} {p : List Byte} (hlen : p.length = payloadLength h.op h.count) (h6 : h.op = 6) :
    (∀ c ∈ scalarsOf p, isScalar c) ↔ ∀ k < h.count, isScalar (scalarAt p k) :=
  forall_mem_scalarsOf (by rw [hlen, h6]; rfl)

/-- A request decodes as the operation of its header, where it passes the checks. -/
theorem decodeRequest_eq_instr_iff_legal {b0 b1 b2 b3 : Byte} {p : List Byte} {i : Instr} :
    decodeRequest (b0 :: b1 :: b2 :: b3 :: p) = .instr i ↔
      (readHeader b0 b1 b2 b3).Legal p ∧ (readHeader b0 b1 b2 b3).operation p = .instr i := by
  rw [← Header.firstFailedCheck_eq_none_iff, decodeRequest]
  cases (readHeader b0 b1 b2 b3).firstFailedCheck p <;> simp

/-- A well-formed host request passes the checks. -/
theorem Instr.header_legal {i : Instr} (hw : i.wf = true) (hi : i.isHostRequest = true) :
    i.header.Legal i.payload := by
  cases i with
  | cmdDisplayMode | cmdDataMode | cmdAddrWrite | cmdPowerOn | cmdPowerOff => cases hi
  | render st text =>
    obtain ⟨-, hscalar⟩ := wf_render_iff.mp hw
    have hscalars : ∀ c ∈ scalarsOf (text.flatMap scalarBytes), isScalar c := by
      rwa [scalarsOf_flatMap_scalarBytes hscalar]
    exact ⟨length_flatMap_scalarBytes text, by simp [header], rfl, nofun, by simp [header], by simp [header],
      fun _ => hscalars⟩
  | _ => refine ⟨rfl, ?_, rfl, ?_, ?_, ?_, ?_⟩ <;> simp [header]

/-- Its header's operation is the request itself. -/
theorem Instr.header_operation {i : Instr} (hw : i.wf = true) (hi : i.isHostRequest = true) :
    i.header.operation i.payload = .instr i := by
  cases i with
  | cmdDisplayMode | cmdDataMode | cmdAddrWrite | cmdPowerOn | cmdPowerOff => cases hi
  | render st text =>
    exact congrArg (fun t => Decoded.instr (.render st t)) (scalarsOf_flatMap_scalarBytes (wf_render_iff.mp hw).2)
  | _ => rfl

/-- Where there is neither an argument nor a payload, the checks leave the operation code alone. -/
theorem Header.Legal.bare {h : Header} {p : List Byte} (hl : h.Legal p) (hop : ¬ (h.op = 4 ∨ h.op = 5 ∨ h.op = 6)) :
    h = ⟨h.op, false, 0, 0, 0⟩ ∧ p = [] := by
  obtain ⟨op, on, rsv, arg, count⟩ := h
  obtain ⟨hlen, -, hrsv, hon, harg, hcount, -⟩ := hl
  obtain rfl : rsv = 0 := hrsv
  obtain rfl : on = false := Bool.eq_false_iff.mpr fun h1 => hop (.inl (hon h1))
  obtain rfl : arg = 0 := not_not.mp fun hne => hop (harg hne)
  obtain rfl : count = 0 := not_not.mp fun hne => hop (.inr (hcount hne))
  have hempty : payloadLength op 0 = 0 := by simp [payloadLength]
  exact ⟨rfl, List.length_eq_zero_iff.mp (hlen.trans hempty)⟩

/-- A header and payload that pass the checks are those of a well-formed host request. -/
theorem Header.Legal.exists_instr {h : Header} {p : List Byte} (hl : h.Legal p) (hcount : h.count ≤ maxCount) :
    ∃ i : Instr, i.isHostRequest = true ∧ i.wf = true ∧ i.header = h ∧ i.payload = p := by
  obtain ⟨op, on, rsv, arg, count⟩ := h
  obtain rfl : rsv = 0 := hl.rsv
  obtain ⟨h1, h7⟩ : 1 ≤ op ∧ op ≤ 7 := hl.op
  have hlen : p.length = payloadLength op count := hl.length
  interval_cases op
  · obtain ⟨hh, rfl⟩ := hl.bare (by simp)
    exact ⟨.init, rfl, rfl, hh.symm, rfl⟩
  · obtain ⟨hh, rfl⟩ := hl.bare (by simp)
    exact ⟨.setDisplayMode, rfl, rfl, hh.symm, rfl⟩
  · obtain ⟨hh, rfl⟩ := hl.bare (by simp)
    exact ⟨.setDataMode, rfl, rfl, hh.symm, rfl⟩
  · obtain rfl : count = 0 := by simpa using hl.count
    obtain rfl : p = [] := List.length_eq_zero_iff.mp hlen
    cases on
    · exact ⟨.setPowerOff arg, rfl, rfl, rfl, rfl⟩
    · exact ⟨.setPowerOn arg, rfl, rfl, rfl, rfl⟩
  · obtain rfl : on = false := by simpa using hl.on
    obtain rfl : p.length = count := hlen
    exact ⟨.writeFrame arg p, rfl, Instr.wf_writeFrame_iff.mpr hcount, rfl, rfl⟩
  · obtain rfl : on = false := by simpa using hl.on
    obtain rfl : (scalarsOf p).length = count := length_scalarsOf hlen
    exact ⟨.render arg (scalarsOf p), rfl, Instr.wf_render_iff.mpr ⟨hcount, hl.scalars rfl⟩, rfl,
      flatMap_scalarBytes_scalarsOf hlen⟩
  · obtain ⟨hh, rfl⟩ := hl.bare (by simp)
    exact ⟨.shutdown, rfl, rfl, hh.symm, rfl⟩

/-- WHAT DECODES (R70 to R73): the well-formed host requests, each from its own header and payload. -/
theorem decodeRequest_eq_instr_iff {b0 b1 b2 b3 : Byte} {p : List Byte} {i : Instr} :
    decodeRequest (b0 :: b1 :: b2 :: b3 :: p) = .instr i ↔
      i.isHostRequest = true ∧ i.wf = true ∧ i.header = readHeader b0 b1 b2 b3 ∧ i.payload = p := by
  rw [decodeRequest_eq_instr_iff_legal]
  constructor
  · rintro ⟨hl, hop⟩
    obtain ⟨j, hj, hw, hh, rfl⟩ := hl.exists_instr (readHeader_count_le b0 b1 b2 b3)
    rw [← hh, Instr.header_operation hw hj] at hop
    cases hop
    exact ⟨hj, hw, hh, rfl⟩
  · rintro ⟨hi, hw, hh, rfl⟩
    exact hh ▸ ⟨Instr.header_legal hw hi, Instr.header_operation hw hi⟩

/-- Some instruction is decoded exactly where the checks pass. -/
theorem exists_decodeRequest_iff_legal {b0 b1 b2 b3 : Byte} {p : List Byte} :
    (∃ i, decodeRequest (b0 :: b1 :: b2 :: b3 :: p) = .instr i) ↔ (readHeader b0 b1 b2 b3).Legal p := by
  constructor
  · rintro ⟨i, h⟩
    exact (decodeRequest_eq_instr_iff_legal.mp h).1
  · intro hl
    obtain ⟨i, hi, hw, hh, hp⟩ := hl.exists_instr (readHeader_count_le b0 b1 b2 b3)
    exact ⟨i, decodeRequest_eq_instr_iff.mpr ⟨hi, hw, hh, hp⟩⟩

/-- Settles O49: the four header bytes are read back as the request's header. -/
theorem encodedRequestsDecode : Obligations.EncodedRequestsDecode := by
  intro c i hw hi
  have hl := Instr.header_legal hw hi
  have hop : i.header.op < 16 := Nat.lt_of_le_of_lt hl.op.2 (by decide)
  rw [encode_eq_header_payload c hi]
  refine decodeRequest_eq_instr_iff.mpr ⟨hi, hw, ?_, rfl⟩
  rw [readHeader_headerBytes hop _ _ (Instr.header_count_le hw), ← hl.rsv]

/-- Settles O50: the header that was read is the request's, and it is written back as the bytes it was read from. -/
theorem decodedRequestsEncodeBack : Obligations.DecodedRequestsEncodeBack := by
  intro c b0 b1 b2 b3 p i h
  obtain ⟨hl, -⟩ := decodeRequest_eq_instr_iff_legal.mp h
  obtain ⟨hi, hw, hh, rfl⟩ := decodeRequest_eq_instr_iff.mp h
  refine ⟨hw, hi, ?_, ?_⟩
  · rw [encode_eq_header_payload c hi, hh, headerBytes_readHeader hl.rsv]
    rfl
  · rw [Header.requestLength, ← hl.length, Nat.add_comm]
    rfl

/-- Settles O12: the checks, each read at its bit positions. -/
theorem exactlyTheLegalRequestsDecode : Obligations.ExactlyTheLegalRequestsDecode := by
  refine ⟨fun bytes hlen i h => ?_, fun b0 b1 b2 b3 p op n hop hn => ?_⟩
  · rw [decodeRequest_eq_illegal_of_short hlen] at h
    cases h
  obtain rfl : (readHeader b0 b1 b2 b3).op = op := hop ▸ readHeader_op_eq ..
  obtain rfl : (readHeader b0 b1 b2 b3).count = n := hn.symm
  have hrsv := readHeader_rsv_eq_zero_iff b0 b1 b2 b3
  rw [exists_decodeRequest_iff_legal]
  constructor
  · rintro ⟨hlen, hop, hr, hon, harg, hcount, hs⟩
    exact ⟨hlen, hop, hrsv.mp hr, hon, harg, hcount, fun h6 => (Header.scalars_iff hlen h6).mp (hs h6)⟩
  · rintro ⟨hlen, hop, hr, hon, harg, hcount, hs⟩
    exact ⟨hlen, hop, hrsv.mpr hr, hon, harg, hcount, fun h6 => (Header.scalars_iff hlen h6).mpr (hs h6)⟩

/-! ## Wire commands (R61 to R66, R69) -/

theorem decodeWire_addrWrite (c : Config) (u : UnitId) (d : List Byte) :
    decodeWire c u (cmdAddrWriteByte :: d) = .instr (.cmdAddrWrite u d) := by
  rw [decodeWire, if_pos rfl]

/-- The command byte of power on has its fixed bits above its brightness field, and is not that of address write. -/
theorem powerOnByte_fields (b : BitVec 3) :
    (0b10001#5 ++ b).extractLsb' 3 5 = 0b10001#5 ∧ (0b10001#5 ++ b).extractLsb' 0 3 = b ∧
      0b10001#5 ++ b ≠ cmdAddrWriteByte := by
  revert b; decide

theorem decodeWire_powerOn (c : Config) (u : UnitId) (b : BitVec 3) (d : List Byte) :
    decodeWire c u ((0b10001#5 ++ b) :: d) = commandOnly (.cmdPowerOn u b) d := by
  obtain ⟨hfixed, hfield, hne⟩ := powerOnByte_fields b
  rw [decodeWire, if_neg hne, if_pos hfixed, hfield]

theorem decodeWire_powerOff (c : Config) (u : UnitId) (d : List Byte) :
    decodeWire c u (cmdPowerOffByte :: d) = commandOnly (.cmdPowerOff u) d := by
  rw [decodeWire, if_neg (by decide), if_neg (by decide), if_pos rfl]

/-- A command byte that is none of the fixed commands is one of the open two or no command. -/
theorem decodeWire_open (c : Config) (u : UnitId) {v : Byte} (d : List Byte)
    (hv : v ≠ 0xC0 ∧ v ≠ 0x80 ∧ v.extractLsb' 3 5 ≠ 0b10001#5) :
    decodeWire c u (v :: d) =
      if v = c.displayModeCmd then commandOnly (.cmdDisplayMode u) d
      else if v = c.dataModeCmd then commandOnly (.cmdDataMode u) d
      else .illegal .notACommand := by
  obtain ⟨haddr, hoff, hon⟩ := hv
  rw [decodeWire, if_neg haddr, if_neg hon, if_neg hoff]

/-- Settles O51: one decoding lemma for each command. -/
theorem encodedWireCommandsDecode : Obligations.EncodedWireCommandsDecode := by
  intro c i u hu hopen hne
  cases i with
  | cmdDisplayMode =>
    cases hu
    rw [encode, decodeWire_open c u [] (hopen _ (.inl rfl)), if_pos rfl, commandOnly]
  | cmdDataMode =>
    cases hu
    rw [encode, decodeWire_open c u [] (hopen _ (.inr rfl)), if_neg hne.symm, if_pos rfl, commandOnly]
  | cmdAddrWrite _ d => cases hu; exact decodeWire_addrWrite c u d
  | cmdPowerOn _ b => cases hu; exact decodeWire_powerOn c u b []
  | cmdPowerOff => cases hu; exact decodeWire_powerOff c u []
  | _ => cases hu

/-- Settles O53: the decoding lemmas of the fixed commands, at the bytes of R64 to R66. -/
theorem fixedCommandBytesDecode : Obligations.FixedCommandBytesDecode := fun c u =>
  ⟨decodeWire_addrWrite c u [0x1F], decodeWire_powerOn c u 5 [], decodeWire_powerOff c u [],
    decodeWire_powerOff c u [0x00]⟩

end Sys2Proof

namespace Sys2Proof.Machine

/-- Settles O52: the text forms are read, and the bytes of an example decode because they are its encoding. -/
theorem encodingExamples : Obligations.EncodingExamples := fun c =>
  ⟨rfl, rfl, rfl, rfl, rfl, rfl, encodedRequestsDecode c (.setPowerOn 7) rfl rfl,
    encodedRequestsDecode c (.writeFrame 0x0F [0x1F, 0x01]) rfl rfl,
    encodedRequestsDecode c (.render 0x01 [0x48, 0x69]) rfl rfl⟩

/-! ## Wire frames (R60, R67, R68) -/

/-- Settles O44: the lengths of the calls and of the layout are `E` and `B` of the number of data bytes sent. -/
theorem frameLengths : Obligations.FrameLengths :=
  ⟨frame_length, fun stb cmd d => ⟨frameBits_length cmd d, (frameEvents_length stb cmd d).trans (frame_length ..).symm⟩,
    rfl, rfl, rfl, screenEvents_length⟩

theorem slotCount_strictMono : StrictMono slotCount := by
  intro m n h
  simp only [slotCount]
  omega

/-- Only the first 14 data bytes are sent (R103). -/
theorem frame_take (stb : Pin) (cmd : Byte) (d : List Byte) : frame stb cmd (d.take 14) = frame stb cmd d := by
  simp [frame, List.take_take]

theorem frame_congr (stb : Pin) (cmd : Byte) {d d' : List Byte} (h : d.map wireBits = d'.map wireBits) :
    frame stb cmd d = frame stb cmd d' := by
  have hlen : d.length = d'.length := by simpa using congrArg List.length h
  rw [frame_eq_slots, frame_eq_slots, frameBits, frameBits, hlen, funext (slotBit_congr cmd h)]

section
variable {stb : Pin} {cmd cmd' : Byte} {d d' : List Byte} (h : frame stb cmd d = frame stb cmd' d')
include h

/-- A frame's length tells how many data bytes it sends. -/
theorem sent_length_eq_of_frame_eq : min d.length 14 = min d'.length 14 := by
  have hlen : eventCount (min d.length 14) = eventCount (min d'.length 14) := by
    rw [← frame_length stb cmd, ← frame_length stb cmd', h]
  simp only [eventCount] at hlen
  exact slotCount_strictMono.injective (by omega)

/-- The data line's call of a slot tells the slot's bit. -/
theorem slotBit_eq_of_frame_eq {k : Nat} (hk : k < slotCount (min d.length 14)) :
    slotBit cmd d k = slotBit cmd' d' k := by
  have hcall := frame_getElem?_slot stb cmd d hk (j := 1) (by decide)
  rw [h, frame_getElem?_slot stb cmd' d' (sent_length_eq_of_frame_eq h ▸ hk) (by decide)] at hcall
  simpa [emitBit] using hcall.symm

/-- The first 8 slots tell the command byte. -/
theorem command_eq_of_frame_eq : cmd = cmd' := by
  refine BitVec.eq_of_getLsbD_eq fun k hk => ?_
  rw [← slotBit_command cmd d hk, ← slotBit_command cmd' d' hk]
  exact slotBit_eq_of_frame_eq h (by simp only [slotCount]; omega)

/-- The slots of a data byte tell its wire bits. -/
theorem wireBits_eq_of_frame_eq {i : Nat} (hi : i < min d.length 14) :
    wireBits (d.getD i 0) = wireBits (d'.getD i 0) := by
  refine BitVec.eq_of_getLsbD_eq fun b hb => ?_
  rw [getLsbD_wireBits _ hb, getLsbD_wireBits _ hb, ← slotBit_data cmd d i hb, ← slotBit_data cmd' d' i hb]
  exact slotBit_eq_of_frame_eq h (dataStart_add_lt_slotCount hi hb)

theorem sentBytes_eq_of_frame_eq : (d.take 14).map wireBits = (d'.take 14).map wireBits := by
  have hlen := sent_length_eq_of_frame_eq h
  refine List.ext_getElem (by simpa [Nat.min_comm] using hlen) fun i hi hi' => ?_
  simp only [List.length_map, List.length_take, lt_min_iff] at hi hi'
  simpa [hi, hi'] using wireBits_eq_of_frame_eq h (lt_min hi.2 hi.1)

end

/-- Settles O46: the slots tell the command and the wire bits, and nothing else of the contents reaches the calls. -/
theorem framesTellTheirContentsApart : Obligations.FramesTellTheirContentsApart := by
  intro stb cmd cmd' d d'
  constructor
  · exact fun h => ⟨command_eq_of_frame_eq h, sentBytes_eq_of_frame_eq h⟩
  · rintro ⟨rfl, hbytes⟩
    rw [← frame_take stb cmd d, frame_congr stb cmd hbytes, frame_take]

/-! ## Requests that fail a check (R73) -/

/-- Settles O9: the step of a busy block ends the request it fetches, and nothing else happens. -/
theorem illegalRequestsOnlyGetAnAnswer : Obligations.IllegalRequestsOnlyGetAnAnswer := by
  intro s bytes why hc hb hp hd
  simp only [step, fetch_busy hc hb hp, hd, State.rejectRequest, State.finish_eq_responded]

/-- Settles O13: `exec_contract`, at a request over its bound. -/
theorem contractErrorsComeBeforeTheLifecycle : Obligations.ContractErrorsComeBeforeTheLifecycle :=
  ⟨fun _ _ _ h => exec_contract (Nat.not_le.mpr h), fun _ _ _ h => exec_contract (Nat.not_le.mpr h)⟩

end Sys2Proof.Machine
end

/-! The Protocol Encoder's claims (40_protocol_encoder.md): the pins a wire command writes, the levels a completed frame
leaves, and where a failed frame ends. -/

namespace Sys2Proof.Machine

/-! ## Levels and writes (R25, R31) -/

@[simp] theorem strobe_ne_clk (u : UnitId) : strobe u ≠ .clk := by cases u <;> decide

@[simp] theorem strobe_ne_dio (u : UnitId) : strobe u ≠ .dio := by cases u <;> decide

theorem strobe_injective : Function.Injective strobe := by
  intro u v
  cases u <;> cases v <;> decide

@[simp] theorem Levels.get_set_self (l : Levels) (p : Pin) (v : Level) : (l.set p v).get p = v := by cases p <;> rfl

theorem Levels.get_set_of_ne (l : Levels) {p q : Pin} (h : q ≠ p) (v : Level) : (l.set p v).get q = l.get q := by
  cases p <;> cases q <;> simp_all [Levels.get, Levels.set]

theorem Event.isWrite_iff {e : Event} : e.isWrite = true ↔ ∃ p b r, e = .lvl p b r := by
  cases e <;> simp [Event.isWrite]

/-- Line writes to other pins leave a pin's level alone, whatever they are answered. -/
theorem Levels.get_foldl_after {p : Pin} {es : List Event} (hwrite : ∀ e ∈ es, e.isWrite = true) (hno : NoWrite p es)
    (l : Levels) : (es.foldl Levels.after l).get p = l.get p := by
  induction es generalizing l with
  | nil => rfl
  | cons e es ih =>
    obtain ⟨hhead, htail⟩ := List.forall_mem_cons.mp hwrite
    obtain ⟨hne, hnoTail⟩ := List.forall_mem_cons.mp hno
    obtain ⟨q, b, r, rfl⟩ := Event.isWrite_iff.mp hhead
    have hpq : p ≠ q := fun h => hne (congrArg some h.symm)
    rw [List.foldl_cons, ih htail hnoTail]
    cases r <;> exact Levels.get_set_of_ne l hpq _

/-! ## What a wire command writes (R102, R120) -/

/-- A wire command is a frame on its unit's strobe. -/
theorem commandUnit_frame {i : Instr} {u : UnitId} (h : commandUnit i = some u) (s : State) :
    i.isHostRequest = false ∧ ∃ cmd d, unitEvents s i = frameEvents (strobe u) cmd d := by
  cases i with
  | cmdDisplayMode | cmdDataMode | cmdAddrWrite | cmdPowerOn | cmdPowerOff => cases h; exact ⟨rfl, _, _, rfl⟩
  | init | setDisplayMode | setDataMode | setPowerOff | setPowerOn | writeFrame | render | shutdown => cases h

/-- Whatever a wire command is answered, its events are line writes, and to no pin but the clock, the data line and its
unit's strobe. -/
theorem unitCommand_writes {i : Instr} {u : UnitId} {s t : State} (hu : commandUnit i = some u) (h : exec i s = .next t) :
    ∃ w r, t = { s.afterEvents w with unitResult := some r } ∧ (∀ e ∈ w, e.isWrite = true) ∧
      ∀ p, p ≠ .clk → p ≠ .dio → p ≠ strobe u → NoWrite p w := by
  obtain ⟨hi, cmd, d, hframe⟩ := commandUnit_frame hu s
  have hwrite := isWrite_of_writes (unitEvents_writes s i)
  have hno : ∀ p, p ≠ .clk → p ≠ .dio → p ≠ strobe u → NoWrite p (unitEvents s i) :=
    fun p hclk hdio hstb => hframe ▸ frameEvents_noWrite hclk hdio hstb cmd d
  obtain ⟨w, r, ht, ⟨rfl, -⟩ | ⟨k, hk, rfl, -⟩⟩ := unit_next hi h
  · exact ⟨_, r, ht, hwrite, hno⟩
  · exact ⟨_, r, ht, isWrite_cut hwrite hk, fun p hclk hdio hstb => (hno p hclk hdio hstb).cut hk⟩

/-- Settles O18: a wire command's events write no pin but its frame's three, and a pin that is not written keeps its
level. -/
theorem unitCommandFrame : Obligations.UnitCommandFrame := by
  intro i u s t hu h
  obtain ⟨w, r, rfl, hwrite, hno⟩ := unitCommand_writes hu h
  refine ⟨w, r, rfl, ?_, ?_⟩
  · intro e he
    obtain ⟨p, b, a, rfl⟩ := Event.isWrite_iff.mp (hwrite e he)
    refine ⟨p, b, a, rfl, ?_⟩
    by_contra hp
    obtain ⟨hclk, hdio, hstb⟩ := by simpa only [not_or] using hp
    exact (hno p hclk hdio hstb).lvl_notMem b a he
  · intro v hv
    exact Levels.get_foldl_after hwrite
      (hno _ (strobe_ne_clk v) (strobe_ne_dio v) (strobe_injective.ne hv)) s.lvl

/-! ## The levels a frame leaves (R104, R108) -/

/-- The last slot carries the command's top bit where there is no data byte, a padding zero after an even number of data
bytes, and the last data byte's top wire bit after an odd number (R44, R105). -/
theorem slotBit_last (cmd : Byte) (d : List Byte) :
    slotBit cmd d (slotCount (min d.length 14) - 1) =
      if d = [] then cmd.getLsbD 7
      else if min d.length 14 % 2 = 0 then false
      else (d.getD (min d.length 14 - 1) 0).getLsbD 4 := by
  split
  case isTrue hd => subst hd; exact slotBit_command cmd [] (by decide)
  case isFalse hd =>
    have hpos : 0 < min d.length 14 := lt_min (List.length_pos_of_ne_nil hd) (by decide)
    generalize min d.length 14 = n at hpos ⊢
    split
    case isTrue heven =>
      have hslot : slotCount n - 1 = 8 + 16 * (n / 2 - 1) + 10 + 5 := by simp only [slotCount]; omega
      rw [hslot, slotBit_padding cmd d _ (by decide)]
    case isFalse hodd =>
      have hslot : slotCount n - 1 = dataStart (n - 1) + 4 := by simp only [slotCount, dataStart]; omega
      rw [hslot, slotBit_data cmd d _ (by decide)]

/-- A frame ends with its last slot and the strobe's rising edge (R60). -/
theorem frameEvents_eq_append_last (stb : Pin) (cmd : Byte) (d : List Byte) :
    ∃ w, frameEvents stb cmd d =
      w ++ (slotEvents (slotBit cmd d (slotCount (min d.length 14) - 1)) ++ [.lvl stb true .ok]) := by
  have hcount : slotCount (min d.length 14) = slotCount (min d.length 14) - 1 + 1 := by simp only [slotCount]; omega
  refine ⟨.lvl stb false .ok ::
    ((List.range (slotCount (min d.length 14) - 1)).map (slotBit cmd d)).flatMap slotEvents, ?_⟩
  rw [frameEvents, frameBits, hcount, List.range_succ]
  simp

/-- The last four events set the levels of the frame's three lines: the data line's last, and clock and strobe high. -/
theorem foldl_after_frameEvents (stb : Pin) (cmd : Byte) (d : List Byte) (l : Levels) :
    ∃ l' : Levels, (frameEvents stb cmd d).foldl Levels.after l =
      ((l'.set .dio (Level.ofBit (slotBit cmd d (slotCount (min d.length 14) - 1)))).set .clk .high).set stb .high := by
  obtain ⟨w, hw⟩ := frameEvents_eq_append_last stb cmd d
  refine ⟨(w.foldl Levels.after l).set .clk .low, ?_⟩
  rw [hw, List.foldl_append, List.foldl_append]
  rfl

/-- A frame that answers `ok` made all its calls. -/
theorem sendFrame_ok {u : UnitId} {cmd : Byte} {d : List Byte} {s t : State}
    (h : State.sendFrame u cmd d s = (t, .ok)) : t = s.afterEvents (frameEvents (strobe u) cmd d) := by
  obtain hs | ⟨k, -, hs⟩ := (sendFrame_sends u cmd d s).cases <;> rw [hs] at h <;> cases h
  rfl

/-- A frame that answers `err` made its calls up to a failed one (R104). -/
theorem sendFrame_err {u : UnitId} {cmd : Byte} {d : List Byte} {s t : State}
    (h : State.sendFrame u cmd d s = (t, .err)) :
    ∃ k < callCount (frameEvents (strobe u) cmd d), t = s.afterEvents (cutAtCall k (frameEvents (strobe u) cmd d)) := by
  obtain hs | ⟨k, hk, hs⟩ := (sendFrame_sends u cmd d s).cases <;> rw [hs] at h <;> cases h
  exact ⟨k, hk, rfl⟩

/-- Settles O47: the frame's last events set the levels of its three lines, and none of its events writes the other
strobe. -/
theorem completedFrameLevels : Obligations.CompletedFrameLevels := by
  intro u cmd d s t h
  obtain rfl := sendFrame_ok h
  have hbit : Level.ofBit (slotBit cmd d (slotCount (min d.length 14) - 1)) =
      if d = [] then Level.ofBit (cmd.getLsbD 7)
      else if min d.length 14 % 2 = 0 then .low
      else Level.ofBit ((d.getD (min d.length 14 - 1) 0).getLsbD 4) := by
    rw [slotBit_last, apply_ite Level.ofBit, apply_ite Level.ofBit]; rfl
  have hother : ∀ v, v ≠ u → NoWrite (strobe v) (frameEvents (strobe u) cmd d) := fun v hv =>
    frameEvents_noWrite (strobe_ne_clk v) (strobe_ne_dio v) (strobe_injective.ne hv) cmd d
  obtain ⟨l, hl⟩ := foldl_after_frameEvents (strobe u) cmd d s.lvl
  rw [← hbit]
  refine ⟨?_, ?_, fun v hv => ?_, ?_⟩
  · rw [State.afterEvents_lvl, hl, Levels.get_set_of_ne _ (strobe_ne_clk u).symm, Levels.get_set_self]
  · rw [State.afterEvents_lvl, hl, Levels.get_set_self]
  · exact Levels.get_foldl_after (isWrite_of_writes (frameEvents_writes _ cmd d)) (hother v hv) s.lvl
  · rw [State.afterEvents_lvl, hl, Levels.get_set_of_ne _ (strobe_ne_dio u).symm, Levels.get_set_of_ne _ (by decide),
      Levels.get_set_self]

/-- The slots of a frame write no strobe. -/
theorem flatMap_slotEvents_noWrite (u : UnitId) (bs : List Bool) : NoWrite (strobe u) (bs.flatMap slotEvents) := by
  intro e he
  obtain ⟨b, -, he⟩ := List.mem_flatMap.mp he
  simp only [slotEvents, List.mem_cons, List.not_mem_nil, or_false] at he
  rcases he with rfl | rfl | rfl <;> simp [Event.writtenPin, Ne.symm]

/-- Inside a frame, after its first call and before its last one, its strobe is low. -/
theorem strobe_low_inside_frame {u : UnitId} {cmd : Byte} {d : List Byte} {e₀ e : Event} {p q : List Event}
    (h : frameEvents (strobe u) cmd d = e₀ :: p ++ e :: q) (l : Levels) :
    ((e₀ :: p).foldl Levels.after l).get (strobe u) = .low := by
  rw [frameEvents, List.cons_append] at h
  obtain ⟨rfl, htail⟩ := List.cons.inj h
  have hslots : p <+: (frameBits cmd d).flatMap slotEvents := by
    refine List.prefix_of_prefix_length_le ⟨_, htail.symm⟩ (List.prefix_append ..) ?_
    have hlen := congrArg List.length htail
    simp only [List.length_append, List.length_cons, List.length_nil] at hlen
    omega
  have hwrite : ∀ e ∈ p, e.isWrite = true := fun e he =>
    isWrite_of_writes (frameEvents_writes (strobe u) cmd d) e (by rw [frameEvents, htail]; simp [he])
  rw [List.foldl_cons, Levels.get_foldl_after hwrite fun e he => flatMap_slotEvents_noWrite u _ e (hslots.mem he)]
  exact Levels.get_set_self ..

/-- Settles O48: the failed call is the strobe's own, which leaves it unknown, or it comes after the falling edge and
before the rising one, where the strobe is low. -/
theorem failedFrameLeavesItsStrobeInDoubt : Obligations.FailedFrameLeavesItsStrobeInDoubt := by
  intro u cmd d s t h
  obtain ⟨k, hk, rfl⟩ := sendFrame_err h
  obtain ⟨w, e, q, hframe, -, -, hcut⟩ := cutAtCall_eq hk
  obtain ⟨p, b, rfl⟩ := frameEvents_writes (strobe u) cmd d e (by rw [hframe]; simp)
  have hlvl : (s.afterEvents (w ++ [.lvl p b .err])).lvl = (w.foldl Levels.after s.lvl).set p .unknown := by
    rw [State.afterEvents_lvl, List.foldl_append]; rfl
  have hstrobe : ((w.foldl Levels.after s.lvl).set p .unknown).get (strobe u) = .low ∨
      ((w.foldl Levels.after s.lvl).set p .unknown).get (strobe u) = .unknown := by
    by_cases hp : strobe u = p
    · exact .inr (hp ▸ Levels.get_set_self ..)
    · rw [Levels.get_set_of_ne _ hp]
      cases w with
      | nil => cases hframe; exact absurd rfl hp
      | cons e₀ w => exact .inl (strobe_low_inside_frame hframe s.lvl)
  simp only [hcut, Event.failed, State.strobeMayBeLow, hlvl]
  refine ⟨w.length, p, b, by simp [hframe], by simp [hframe], Levels.get_set_self .., hstrobe, ?_⟩
  rcases hstrobe with h | h <;> rw [h] <;> rfl

end Sys2Proof.Machine

/-! The Display Unit's claims (41_display_unit.md): the frame each wire command sends, the step that performs a called-for
unit operation, and the power byte. -/

namespace Sys2Proof.Machine

/-! ## The wire commands (R120 to R122, R124, R125) -/

/-- A wire command sends its frame's events and returns the frame's result: `exec_unit`, at every state. -/
theorem unitSends_unitEvents {i : Instr} (hi : i.isHostRequest = false) : UnitSends i (fun s => unitEvents s i) :=
  exec_unit hi

/-- Settles O16: each command's events are one frame with its command byte and no data byte, of `E(0)` events. -/
theorem unitCommandsSendOneFrame : Obligations.UnitCommandsSendOneFrame := fun u =>
  ⟨unitSends_unitEvents (i := .cmdDisplayMode u) rfl, unitSends_unitEvents (i := .cmdDataMode u) rfl,
    fun b => unitSends_unitEvents (i := .cmdPowerOn u b) rfl, unitSends_unitEvents (i := .cmdPowerOff u) rfl,
    fun cmd => frameEvents_length (strobe u) cmd []⟩

/-- The events of a frame are those of its first 14 data bytes (R103). -/
theorem frameEvents_take (stb : Pin) (cmd : Byte) (d : List Byte) :
    frameEvents stb cmd (d.take 14) = frameEvents stb cmd d := by
  rw [← frame_events, frame_take, frame_events]

/-- Settles O17: the command's events are one frame with 0xC0 and its data bytes, of which the frame takes at most 14. -/
theorem addressWriteSendsItsDataBytes : Obligations.AddressWriteSendsItsDataBytes := fun u d =>
  ⟨unitSends_unitEvents (i := .cmdAddrWrite u d) rfl, frameEvents_length (strobe u) 0xC0 d,
    (frameEvents_take (strobe u) 0xC0 d).symm⟩

/-! ## The step at the unit port (R120) -/

/-- A called-for unit operation is fetched before anything else, and its call is taken. -/
theorem fetch_unit {s : State} {u : UnitId} {bytes : List Byte} (hc : s.unitCall = some (u, bytes)) :
    s.fetch = .unit (decodeWire s.cfg u bytes) { s with unitCall := none } := by
  simp only [State.fetch, hc]

/-- Settles O7: the step performs what it fetches. -/
theorem stepPerformsTheCalledUnitOperation : Obligations.StepPerformsTheCalledUnitOperation := by
  intro s u bytes i hc hd
  simp only [step, fetch_unit hc, hd]

/-! ## The power byte (R123) -/

/-- `b AND 7` is the brightness field `b[2:0]`. -/
theorem and_seven_eq_brightness (b : Byte) : b &&& 0x07 = (b.extractLsb' 0 3).setWidth 8 := by
  have hlow : (b &&& 0x07).toNat = b.toNat % 2 ^ 3 := Nat.and_two_pow_sub_one_eq_mod b.toNat 3
  refine BitVec.eq_of_toNat_eq ?_
  rw [hlow, BitVec.toNat_setWidth, BitVec.extractLsb'_toNat, Nat.shiftRight_zero]
  omega

/-- Bits 7 and 3 are set and bits 6:4 clear, over a field of 3 bits. -/
theorem powerOnBase_or_setWidth : ∀ f : BitVec 3, 0x88 ||| f.setWidth 8 = 0b10001#5 ++ f := by decide

/-- The power-on byte is the one of CMD_POWER_ON at the brightness field (R65), so it has no other bit of `b`. -/
theorem powerByte_on_eq_append (b : Byte) : powerByte true b = 0b10001#5 ++ b.extractLsb' 0 3 := by
  rw [setPowerOn_byte, and_seven_eq_brightness, powerOnBase_or_setWidth]

/-- The bits of CMD_POWER_ON's byte, for each of the 8 brightness fields (R65). -/
theorem powerOn_append_bits : ∀ f : BitVec 3,
    (0b10001#5 ++ f).extractLsb' 4 3 = 0 ∧ (0b10001#5 ++ f).getLsbD 7 = true ∧ (0b10001#5 ++ f).getLsbD 3 = true ∧
      (0b10001#5 ++ f).extractLsb' 0 3 = f := by decide

/-- Settles O22: the bits of a power-on byte are those of its brightness field's command, the power-off byte is one
value, and so is each corner case. -/
theorem powerByteKeepsThreeBits : Obligations.PowerByteKeepsThreeBits := by
  refine ⟨setPowerOn_byte, setPowerOff_byte, fun on b => ?_, fun b => ?_, by decide⟩
  · cases on with
    | false => rw [setPowerOff_byte]; decide
    | true =>
      obtain ⟨hmid, htop, -, -⟩ := powerOn_append_bits (b.extractLsb' 0 3)
      exact powerByte_on_eq_append b ▸ ⟨hmid, htop⟩
  · obtain ⟨-, -, hthree, hlow⟩ := powerOn_append_bits (b.extractLsb' 0 3)
    exact powerByte_on_eq_append b ▸ ⟨hthree, hlow⟩

end Sys2Proof.Machine

/-! The Screen's claims (42_screen.md): what INIT, the mode and power requests and SHUTDOWN send, and the order of the line
calls over a block's life. -/

namespace Sys2Proof.Machine

/-! ## The lifecycle order (R24, R141, R147, R148, R253) -/

/-- The calls of INIT configure pins, also where one is answered `err`. -/
theorem cut_initEvents_config {k : Nat} (hk : k < 12) : ∀ e ∈ lineCalls (cutAtCall k initEvents), e.isConfig = true :=
  fun e he => mem_cut (es := initEvents) (by decide) hk (fun e h => e.failed_isConfig.trans h) e (List.mem_filter.mp he).1

/-- A wait is no call, so the line calls of a request other than INIT and SHUTDOWN are line writes. -/
theorem Requested.lineCalls_isWrite {i : Instr} {s : State} {w : List Event} {l : Life} {st : Status}
    (h : Requested i s w l st) (hinit : i ≠ .init) (hshut : i ≠ .shutdown) : ∀ e ∈ lineCalls w, e.isWrite = true := by
  intro e he
  obtain ⟨hmem, hcall⟩ := List.mem_filter.mp he
  obtain hwrite | rfl := (h.linesOnly hinit hshut).2 e hmem
  · exact hwrite
  · exact absurd hcall (by decide)

/-- The line calls of a SHUTDOWN: its line writes and then its releases (`RelH` draws no answer). -/
theorem lineCalls_shutdown (s : State) {w : List Event} (hw : ∀ e ∈ w, e.isWrite = true) :
    lineCalls (w ++ Event.relH :: releaseEvents s w) = w ++ releaseEvents s w := by
  have hrelH : lineCalls (Event.relH :: releaseEvents s w) = lineCalls (releaseEvents s w) := rfl
  rw [lineCalls_append, lineCalls_writes hw, hrelH, release_calls]

/-- In READY further line writes may follow. -/
theorem callsOfLife_ready_append {calls w : List Event} (h : callsOfLife .ready calls) (hw : ∀ e ∈ w, e.isWrite = true) :
    callsOfLife .ready (calls ++ w) := by
  obtain ⟨w₀, rfl, hw₀⟩ := h
  exact ⟨w₀ ++ w, List.append_assoc .., List.forall_mem_append.mpr ⟨hw₀, hw⟩⟩

/-- What a request adds to the line calls made so far is what its new life value allows. -/
theorem Requested.keepsLifeOrder {i : Instr} {s : State} {w : List Event} {l : Life} {st : Status}
    (h : Requested i s w l st) {calls : List Event} (hcalls : callsOfLife s.life calls) :
    callsOfLife l (calls ++ lineCalls w) := by
  have hlines := h.lineCalls_isWrite
  cases h with
  | contract | wrongLife => simpa [lineCalls] using hcalls
  | configured _ hl =>
    obtain rfl : calls = [] := by simpa only [hl, callsOfLife] using hcalls
    exact ⟨[], by rfl, nofun⟩
  | configFailed _ hl k hk =>
    obtain rfl : calls = [] := by simpa only [hl, callsOfLife] using hcalls
    exact cut_initEvents_config hk
  | sent hinit hshut _ hl | cut hinit hshut _ hl =>
    exact callsOfLife_ready_append (hl ▸ hcalls) (hlines hinit hshut)
  | shutDown _ hl w hw =>
    obtain ⟨w₀, rfl, hw₀⟩ : callsOfLife .ready calls := hl ▸ hcalls
    refine ⟨w₀ ++ w, releaseEvents s w, ?_, ?_, releaseEvents_pins s w⟩
    · rw [lineCalls_shutdown s hw.isWrite]; simp only [List.append_assoc]
    · exact List.forall_mem_append.mpr ⟨hw₀, hw.isWrite⟩

/-- A response is no call. -/
theorem State.LifeOrder.responded {s : State} (h : s.LifeOrder) (st : Status) : (s.responded st).LifeOrder := by
  obtain ⟨hport, hcalls⟩ := h
  refine ⟨hport, ?_⟩
  rw [State.responded_trace, lineCalls_append]
  simpa [lineCalls, Event.isCall, Event.answer?] using hcalls

/-- Settles O5: a request adds the calls that its new life value allows, and nothing else a step does is a call. -/
theorem everyStepKeepsTheLifecycleOrder : Obligations.EveryStepKeepsTheLifecycleOrder := by
  rintro s t ⟨hport, hcalls⟩ h
  cases step_cases h with
  | unit u bytes i hc => simp [hport] at hc
  | request bytes i _ _ _ hd he =>
    obtain ⟨w, l, st, hr, rfl⟩ := host_next (decodeRequest_host hd) he
    have hafter : ({ s with life := l }.afterEvents w).LifeOrder :=
      ⟨hport, by rw [State.afterEvents_trace, lineCalls_append]; exact hr.keepsLifeOrder hcalls⟩
    exact hafter.responded st
  | illegal _ _ ht => exact ht ▸ State.LifeOrder.responded ⟨hport, hcalls⟩ .errIllegal
  | accept _ _ _ _ ht => exact ht ▸ ⟨hport, hcalls⟩
  | idle _ _ ht => exact ht ▸ ⟨hport, hcalls⟩

/-! ## INIT (R141) -/

/-- Settles O19: the law of INIT. -/
theorem initConfiguresEveryPin : Obligations.InitConfiguresEveryPin := fun _ hl => exec_init hl

/-! ## The mode and power requests (R142 to R144) -/

/-- Two command-only frames are calls only, so they have as many events as calls (R68). -/
theorem bothCommand_length (cmd : Byte) : (bothCommand cmd).length = 52 := by
  rw [← callCount_of_writes (bothCommand_writes cmd), callCount_bothCommand]

/-- A request without a contract bound, other than INIT and SHUTDOWN, sends its events in READY: `exec_sends`. -/
theorem sendsInOrder_sentEvents {i : Instr} (hi : i.isHostRequest = true) (hinit : i ≠ .init) (hshut : i ≠ .shutdown)
    (hc : ∀ c, contractMet c i) : SendsInOrder i (fun s => s.life = .ready) (fun s => sentEvents s i) :=
  fun s hl => exec_sends hi hinit hshut hl (hc s.cfg)

/-- Settles O21: each of the four requests sends its command to both units. -/
theorem modeAndPowerRequestsReachBothUnits : Obligations.ModeAndPowerRequestsReachBothUnits :=
  ⟨sendsInOrder_sentEvents (i := .setDisplayMode) rfl nofun nofun fun _ => trivial,
    sendsInOrder_sentEvents (i := .setDataMode) rfl nofun nofun fun _ => trivial,
    fun b => sendsInOrder_sentEvents (i := .setPowerOn b) rfl nofun nofun fun _ => trivial,
    fun b => sendsInOrder_sentEvents (i := .setPowerOff b) rfl nofun nofun fun _ => trivial, bothCommand_length⟩

/-! ## What SHUTDOWN writes (R147, R149) -/

/-- SHUTDOWN in READY, where the answers are known to give the line writes `w`. -/
theorem exec_shutdown_of_writes {s : State} (hl : s.life = .ready) {w : List Event}
    (hw : ShutdownWrites s (bothCommand 0x80) blankEvents w) :
    exec .shutdown s =
      .next (({ s with life := .released }.afterEvents (w ++ Event.relH :: releaseEvents s w)).responded
        (shutdownStatus s w)) :=
  exec_of_requested rfl (.shutDown rfl hl w hw)

/-- A SHUTDOWN one of whose line writes failed. -/
theorem shutsDownAfter_of_hasErr {s : State} (hl : s.life = .ready) {w : List Event}
    (hw : ShutdownWrites s (bothCommand 0x80) blankEvents w) (herr : HasErr w) : s.ShutsDownAfter w := by
  have he := exec_shutdown_of_writes hl hw
  rwa [shutdownStatus, if_pos herr, releaseEvents_eq] at he

theorem HasErr.append_left {a : List Event} (h : HasErr a) (b : List Event) : HasErr (a ++ b) :=
  let ⟨e, he, ha⟩ := h; ⟨e, List.mem_append_left b he, ha⟩

theorem HasErr.append_right {b : List Event} (h : HasErr b) (a : List Event) : HasErr (a ++ b) :=
  let ⟨e, he, ha⟩ := h; ⟨e, List.mem_append_right a he, ha⟩

/-- The calls after a list cut at call `k` draw the answers from number `k + 1` on. -/
theorem answerAt_afterCut {es : List Event} {k : Nat} (hk : k < callCount es) (s : State) (j : Nat) :
    (s.afterEvents (cutAtCall k es)).answerAt j = s.answerAt (k + 1 + j) := by
  rw [answerAt_afterEvents, callCount_cutAtCall hk]

/-- Settles O36: each place of the failed writes is a case of `ShutdownWrites`, and each case has an `err` in it. -/
theorem shutdownBlanksAsConfigured : Obligations.ShutdownBlanksAsConfigured := by
  intro s hl
  refine ⟨fun k hk hE => ?_, fun k hk hE => ?_⟩
  · have hk : k < callCount blankEvents := by rwa [callCount_screenEvents]
    rw [← callCount_bothCommand 0x80] at hE
    exact shutsDownAfter_of_hasErr hl (.blankCut k hk hE) ((hasErr_cut hk).append_right _)
  · have hk : k < callCount (bothCommand 0x80) := by rwa [callCount_bothCommand]
    have hcut := hasErr_cut hk
    refine ⟨fun hf => shutsDownAfter_of_hasErr hl (.powerCut k hk hE hf) hcut,
      fun hf => ⟨fun hA => ?_, fun m hm hA hE' => ?_⟩⟩
    · refine shutsDownAfter_of_hasErr hl (.powerCutBlank k hk hE hf fun j hj => ?_) (hcut.append_left _)
      rw [answerAt_afterCut hk, hA j (by rwa [callCount_screenEvents] at hj)]
    · refine shutsDownAfter_of_hasErr hl (.bothCut k m hk hE hf (by rwa [callCount_screenEvents]) ⟨fun j hj => ?_, ?_⟩)
        (hcut.append_left _)
      · rw [answerAt_afterCut hk, hA j hj]
      · rw [answerAt_afterCut hk, hE']

/-! ## SHUTDOWN's releases (R148) -/

/-- Release number `j` is of pin `j` of the release order, with the answer it draws. -/
theorem mem_releaseEvents {s : State} {w : List Event} {e : Event} :
    e ∈ releaseEvents s w ↔ ∃ j, ∃ hj : j < 6, e = .rel (releaseOrder[j]'hj) (s.answerAt (callCount w + j)) := by
  rw [releaseEvents_eq, State.releasesAt, List.mem_mapIdx]
  exact exists_congr fun j => exists_congr fun hj => eq_comm

/-- A release was answered `err` where one of the six answers is not `ok`. -/
theorem hasErr_releaseEvents {s : State} {w : List Event} :
    HasErr (releaseEvents s w) ↔ ¬ ∀ k < 6, s.answerAt (callCount w + k) = .ok := by
  constructor
  · rintro ⟨e, he, herr⟩ hok
    obtain ⟨j, hj, rfl⟩ := mem_releaseEvents.mp he
    simp [Event.answer?, hok j hj] at herr
  · intro h
    obtain ⟨j, hj, hne⟩ := by simpa only [not_forall] using h
    have herr : s.answerAt (callCount w + j) = .err := by
      cases ha : s.answerAt (callCount w + j) with
      | ok => exact absurd ha hne
      | err => rfl
    exact ⟨_, mem_releaseEvents.mpr ⟨j, hj, rfl⟩, congrArg some herr⟩

/-- Answered `ok`, the releases are the release order. -/
theorem releaseEvents_of_ok {s : State} {w : List Event} (h : ∀ k < 6, s.answerAt (callCount w + k) = .ok) :
    releaseEvents s w = releaseOrder.map fun p => .rel p .ok := by
  rw [releaseEvents_eq, State.releasesAt]
  refine List.ext_getElem (by simp) fun j hj _ => ?_
  have hj : j < 6 := by simpa [releaseOrder] using hj
  simp [h j hj]

/-- Settles O34: every line write and every release draws `ok`. -/
theorem shutdownOfAWorkingLine : Obligations.ShutdownOfAWorkingLine := by
  intro s hl hA
  have hcount : callCount (bothCommand 0x80) + callCount blankEvents = 776 := by simp
  have hrel : ∀ k < 6, s.answerAt (callCount (bothCommand 0x80 ++ blankEvents) + k) = .ok := fun k hk =>
    hA _ (by rw [callCount_append]; omega)
  have hno : ¬ HasErr (bothCommand 0x80 ++ blankEvents) :=
    not_hasErr_of_writes (List.forall_mem_append.mpr ⟨bothCommand_writes _, screenEvents_writes _ _⟩)
  have he := exec_shutdown_of_writes hl (.all (allOk_mono hA (by omega)))
  rw [shutdownStatus, if_neg hno, if_pos hrel, releaseEvents_of_ok hrel] at he
  rw [he, shutdownEvents]
  simp only [List.append_assoc, List.singleton_append]

/-- SHUTDOWN's status is the first error's, read from its events (R225). -/
theorem shutdownStatus_eq (s : State) (w : List Event) :
    shutdownStatus s w =
      if HasErr w then .errLineWrite else if HasErr (releaseEvents s w) then .errRelease else .ok := by
  simp only [shutdownStatus, hasErr_releaseEvents, ite_not]

/-- A release leaves its pin unknown, and every pin is released. -/
theorem get_foldl_after_releaseEvents (s : State) (w : List Event) (l : Levels) (p : Pin) :
    ((releaseEvents s w).foldl Levels.after l).get p = .unknown := by
  rw [releaseEvents_eq]
  cases p <;> rfl

/-- Settles O35: the law of SHUTDOWN, with its status and its levels read from its events. -/
theorem shutdownAlwaysReleasesEveryPin : Obligations.ShutdownAlwaysReleasesEveryPin := by
  intro s hl
  obtain ⟨w, hw, he⟩ := exec_shutdown hl
  refine ⟨w, releaseEvents s w, _, he, hw.isWrite, releaseEvents_pins s w, shutdownStatus_eq s w, fun l p => ?_⟩
  rw [List.foldl_append, List.foldl_cons, get_foldl_after_releaseEvents]

end Sys2Proof.Machine

/-! The character table's claims (43_char_lut.md): the glyphs of a legal table, the expansion of a text, and that bits 7:5
of the table's bytes are never sent. -/

namespace Sys2Proof.Machine

/-! ## Glyphs (R170 to R173) -/

theorem glyph_eq_getD (c : Config) (k : Nat) : glyph c k = (charLut c (upper c k)).getD [] := by
  rw [glyph]
  cases charLut c (upper c k) <;> rfl

/-- The case map moves no required key (R172). -/
theorem upper_required {c : Config} (hc : c.upperLegal) {k : Nat} (hk : k ∈ requiredKeys) : upper c k = k := by
  obtain ⟨-, -, -, hfixed⟩ := hc
  rw [upper, valueAt_none (hfixed k hk), Option.getD_none]

theorem upper_lowercase {c : Config} (hc : c.upperLegal) {k : Nat} (hk : k < 26) : upper c (0x61 + k) = 0x41 + k := by
  obtain ⟨hsorted, -, hletters, -⟩ := hc
  rw [upper, valueAt_of_mem hsorted (hletters k (List.mem_range.mpr hk)), Option.getD_some]

theorem capital_mem_requiredKeys {k : Nat} (hk : k < 26) : 0x41 + k ∈ requiredKeys := by
  simp only [requiredKeys, List.mem_append, List.mem_map, List.mem_range]
  exact .inl (.inl ⟨k, hk, rfl⟩)

/-- A legal table holds every required key (R171). -/
theorem exists_charLut_required {c : Config} (hc : c.lutLegal) {k : Nat} (hk : k ∈ requiredKeys) :
    ∃ g, charLut c k = some g := by
  obtain ⟨-, -, hheld⟩ := hc
  exact valueAt_some (hheld k hk)

/-- An entry of a legal table has 1 to `MAX_GLYPH` bytes (R170). -/
theorem charLut_length {c : Config} (hc : c.lutLegal) {k : Nat} {g : List Byte} (h : charLut c k = some g) :
    1 ≤ g.length ∧ g.length ≤ c.maxGlyph := by
  obtain ⟨-, hentries, -⟩ := hc
  exact (hentries (k, g) (valueAt_mem h)).2

/-- A required key is a key of the table, and it is its own uppercase (R171, R172). -/
theorem glyph_required_nonempty {c : Config} (hlut : c.lutLegal) (hup : c.upperLegal) {k : Nat} (hk : k ∈ requiredKeys) :
    1 ≤ (glyph c k).length := by
  obtain ⟨g, hg⟩ := exists_charLut_required hlut hk
  rw [glyph_eq_getD, upper_required hup hk, hg]
  exact (charLut_length hlut hg).1

theorem glyph_lowercase {c : Config} (hup : c.upperLegal) {k : Nat} (hk : k < 26) :
    glyph c (0x61 + k) = glyph c (0x41 + k) := by
  rw [glyph_eq_getD, glyph_eq_getD, upper_lowercase hup hk, upper_required hup (capital_mem_requiredKeys hk)]

/-- A miss has no bytes, a hit is an entry of the table (R173, R175). -/
theorem glyph_length_le {c : Config} (hlut : c.lutLegal) (k : Nat) : (glyph c k).length ≤ c.maxGlyph := by
  rw [glyph_eq_getD]
  cases hg : charLut c (upper c k) with
  | none => exact Nat.zero_le _
  | some g => exact (charLut_length hlut hg).2

/-- Settles O32: the three facts about the glyphs of a legal table and case map. -/
theorem requiredCharactersHaveGlyphs : Obligations.RequiredCharactersHaveGlyphs := by
  rintro c ⟨-, hlut, hup, -, -⟩
  exact ⟨fun _ hk => glyph_required_nonempty hlut hup hk, fun _ hk => glyph_lowercase hup hk, glyph_length_le hlut⟩

/-! ## The expansion (R174, R175) -/

theorem expand_eq_flatMap (c : Config) (text : List Nat) : expand c text = text.flatMap (glyph c) := by
  induction text with
  | nil => rfl
  | cons k text ih => rw [expand, ih, List.flatMap_cons]

theorem expand_append (c : Config) (a b : List Nat) : expand c (a ++ b) = expand c a ++ expand c b := by
  simp only [expand_eq_flatMap, List.flatMap_append]

/-- A character whose uppercase the table does not hold adds nothing (R175). -/
theorem expand_cons_of_miss {c : Config} {k : Nat} (h : charLut c (upper c k) = none) (text : List Nat) :
    expand c (k :: text) = expand c text := by
  rw [expand, glyph_eq_getD, h, Option.getD_none, List.nil_append]

theorem expand_length_le {c : Config} (hlut : c.lutLegal) (text : List Nat) :
    (expand c text).length ≤ text.length * c.maxGlyph := by
  induction text with
  | nil => exact Nat.zero_le _
  | cons k text ih =>
    rw [expand, List.length_append, List.length_cons, Nat.succ_mul]
    have := glyph_length_le hlut k
    omega

/-- Settles O33: the expansion maps every character to its glyph and joins the glyphs. -/
theorem expansionFollowsTheText : Obligations.ExpansionFollowsTheText := by
  intro c
  refine ⟨rfl, expand_eq_flatMap c, expand_append c, fun k hk a b => ?_, fun ⟨_, hlut, _⟩ => expand_length_le hlut⟩
  rw [expand_append, expand_append, expand_cons_of_miss hk]

/-! ## Bits 7:5 of the table's bytes (R176)

Two tables whose entries agree in their wire bits expand a text to buffers that agree in theirs, and every column of a
frame is a byte of the buffer or zero. -/

/-- Lookups in two lists with the same keys, and values equal under `f`, find values equal under `f`. -/
theorem map_valueAt_congr {α β : Type} (f : α → β) {l l' : List (Nat × α)}
    (h : List.Forall₂ (fun e e' => e.1 = e'.1 ∧ f e.2 = f e'.2) l l') (k : Nat) :
    (valueAt k l).map f = (valueAt k l').map f := by
  induction h with
  | nil => rfl
  | cons he _ ih =>
    obtain ⟨hkey, hval⟩ := he
    rw [valueAt, valueAt, hkey]
    split
    · exact congrArg some hval
    · exact ih

/-- The state with another character table. -/
def State.withCharLut (lut : List (Nat × List Byte)) (s : State) : State := { s with cfg := { s.cfg with charLut := lut } }

section
variable {s : State} {lut' : List (Nat × List Byte)}
  (hlut : List.Forall₂ (fun e e' => e.1 = e'.1 ∧ e.2.map wireBits = e'.2.map wireBits) s.cfg.charLut lut')
include hlut

theorem glyph_wireBits_withCharLut (k : Nat) :
    (glyph (s.withCharLut lut').cfg k).map wireBits = (glyph s.cfg k).map wireBits := by
  have hlookup : (charLut (s.withCharLut lut').cfg (upper s.cfg k)).map (List.map wireBits) =
      (charLut s.cfg (upper s.cfg k)).map (List.map wireBits) := (map_valueAt_congr _ hlut _).symm
  have hupper : upper (s.withCharLut lut').cfg k = upper s.cfg k := rfl
  rw [glyph_eq_getD, glyph_eq_getD, hupper, ← Option.getD_map (List.map wireBits), ← Option.getD_map (List.map wireBits),
    hlookup]

theorem expand_wireBits_withCharLut (text : List Nat) :
    (expand (s.withCharLut lut').cfg text).map wireBits = (expand s.cfg text).map wireBits := by
  simp only [expand_eq_flatMap, List.map_flatMap, glyph_wireBits_withCharLut hlut]

end

theorem centredColumn_congr {buf buf' : List Byte} (h : buf.map wireBits = buf'.map wireBits) (c : Nat) :
    wireBits (centredColumn buf c) = wireBits (centredColumn buf' c) := by
  have hlen : buf.length = buf'.length := by simpa using congrArg List.length h
  simp only [centredColumn, hlen, apply_ite wireBits, wireBits_getD, h]

theorem scrollColumn_congr {buf buf' : List Byte} (h : buf.map wireBits = buf'.map wireBits) (i c : Nat) :
    wireBits (scrollColumn buf i c) = wireBits (scrollColumn buf' i c) := by
  simp only [scrollColumn, apply_ite wireBits, wireBits_getD, h]

theorem scrollEvents_congr_buffer {buf buf' : List Byte} (h : buf.map wireBits = buf'.map wireBits) (st : Byte) :
    scrollEvents buf st = scrollEvents buf' st := by
  have hlen : buf.length = buf'.length := by simpa using congrArg List.length h
  simp only [scrollEvents, hlen, fun k => screenEvents_congr (st := st) (scrollColumn_congr h (k + 1)) rfl]

/-- RENDER's path and its columns depend on the table through the wire bits of the expansion only. -/
theorem sentEvents_render_withCharLut {s : State} {lut' : List (Nat × List Byte)} {text : List Nat}
    (h : (expand (s.withCharLut lut').cfg text).map wireBits = (expand s.cfg text).map wireBits) (st : Byte) :
    sentEvents (s.withCharLut lut') (.render st text) = sentEvents s (.render st text) := by
  have hlen : (expand (s.withCharLut lut').cfg text).length = (expand s.cfg text).length := by
    simpa using congrArg List.length h
  rw [sentEvents, sentEvents, hlen, screenEvents_congr (centredColumn_congr h) rfl, scrollEvents_congr_buffer h]

/-- What a RENDER did, it does with another table too, where it sends the same events: neither its contract, nor the
lifecycle check, nor the coming answers depend on the table. -/
theorem Requested.render_withCharLut {st : Byte} {text : List Nat} {s : State} {w : List Event} {l : Life} {code : Status}
    {lut' : List (Nat × List Byte)} (h : Requested (.render st text) s w l code)
    (hsent : sentEvents (s.withCharLut lut') (.render st text) = sentEvents s (.render st text)) :
    Requested (.render st text) (s.withCharLut lut') w l code := by
  cases h with
  | contract h => exact .contract h
  | wrongLife hc h => exact .wrongLife hc h
  | configured hi | configFailed hi | shutDown hi => exact nomatch hi
  | sent hinit hshut hc hl h =>
    rw [← hsent] at h ⊢
    exact .sent (s := s.withCharLut lut') hinit hshut hc hl h
  | cut hinit hshut hc hl k hk h =>
    rw [← hsent] at hk ⊢
    exact .cut (s := s.withCharLut lut') hinit hshut hc hl k hk h

/-- Settles O31: RENDER has the same events, life value and status with either table, so it answers the same and leaves
the same trace and levels. -/
theorem tableTopBitsNeverReachTheWire : Obligations.TableTopBitsNeverReachTheWire := by
  intro st text s lut' hlut
  have hsent := sentEvents_render_withCharLut (expand_wireBits_withCharLut hlut text) st
  obtain ⟨w, l, code, hr, he⟩ := exec_host (i := .render st text) rfl s
  exact ⟨_, _, he, exec_of_requested rfl (hr.render_withCharLut hsent), rfl, rfl, rfl⟩

end Sys2Proof.Machine

/-! The renderer's claims (44_renderer.md): what a short and a long text send in READY, and the size and delay of a
scroll. -/

namespace Sys2Proof.Machine

/-! ## What RENDER sends

The encoded length decides which events RENDER sends: those of one centred frame, or those of a scroll (R191). -/

/-- The law of the line requests, `exec_sends`, for a RENDER whose events are known. -/
theorem render_sendsInOrder {st : Byte} {text : List Nat} {pre : State → Prop} {es : State → List Event}
    (hpre : ∀ s, pre s →
      s.life = .ready ∧ text.length ≤ s.cfg.maxText ∧ sentEvents s (.render st text) = es s) :
    SendsInOrder (.render st text) pre es := by
  intro s hs
  obtain ⟨hlife, hcontract, hsent⟩ := hpre s hs
  rw [← hsent]
  exact exec_sends rfl nofun nofun hlife hcontract

theorem sentEvents_render_short {s : State} {text : List Nat} (st : Byte) (h : (expand s.cfg text).length ≤ 27) :
    sentEvents s (.render st text) = screenEvents (centredColumn (expand s.cfg text)) st := if_pos h

theorem sentEvents_render_long {s : State} {text : List Nat} (st : Byte) (h : 27 < (expand s.cfg text).length) :
    sentEvents s (.render st text) = scrollEvents (expand s.cfg text) st := if_neg (Nat.not_le.mpr h)

/-! ## Short texts (R192, R193) -/

/-- The padding on the right is what the left leaves of `27 - L`: half of it, rounded up. -/
theorem centred_eq_zeros_append {buf : List Byte} (h : buf.length ≤ 27) :
    centred buf = zeros ((27 - buf.length) / 2) ++ buf ++ zeros ((27 - buf.length + 1) / 2) := by
  have hright : 27 - buf.length - (27 - buf.length) / 2 = (27 - buf.length + 1) / 2 := by omega
  rw [centred, ← hright]

theorem map_centredColumn {buf : List Byte} (h : buf.length ≤ 27) :
    (List.range 27).map (centredColumn buf) = centred buf :=
  (eq_map_range (centred_length h) fun c _ => centred_getD buf c).symm

/-- Settles O26: RENDER on its short path, and the columns of the centred frame. -/
theorem shortTextsRenderCentred : Obligations.ShortTextsRenderCentred := by
  constructor
  · exact fun st text => render_sendsInOrder fun _ ⟨hlife, hcontract, hshort⟩ =>
      ⟨hlife, hcontract, sentEvents_render_short st hshort⟩
  · exact fun buf h =>
      ⟨(map_centredColumn h).trans (centred_eq_zeros_append h), screenEvents_length (centredColumn buf)⟩

/-! ## Long texts (R194, R196, R197) -/

theorem window_length {buf : List Byte} {i : Nat} (h : i ≤ buf.length) : (slice buf (i - 27) i).length = min i 27 := by
  rw [slice_length h]
  omega

theorem map_scrollColumn {buf : List Byte} {i : Nat} (h : i ≤ buf.length) :
    (List.range 27).map (scrollColumn buf i) = pad27 (slice buf (i - 27) i) := by
  have hwindow : (slice buf (i - 27) i).length ≤ 27 := window_length h ▸ Nat.min_le_right i 27
  exact (eq_map_range (pad27_length hwindow) fun c _ => by rw [pad27_getD, slice_getD, scrollColumn]).symm

/-- Settles O27: RENDER on its long path, and the columns of a scroll frame. -/
theorem longTextsScroll : Obligations.LongTextsScroll := by
  constructor
  · exact fun st text => render_sendsInOrder fun _ ⟨hlife, hcontract, hlong⟩ =>
      ⟨hlife, hcontract, sentEvents_render_long st hlong⟩
  · exact fun _ _ h => ⟨window_length h, map_scrollColumn h⟩

/-! ## The size and delay of a scroll (R195, R200, R265)

A scroll is one screen frame and one wait per step, so whatever adds up over the events is `L` times its value for one
step. -/

theorem additive_scrollEvents {m : List Event → Nat} (happend : ∀ a b, m (a ++ b) = m a + m b) {st : Byte} {c : Nat}
    (hstep : ∀ col, m (screenEvents col st ++ [.wait 128]) = c) (buf : List Byte) :
    m (scrollEvents buf st) = c * buf.length := by
  rw [scrollEvents]
  induction buf.length with
  | zero => simpa using happend [] []
  | succ n ih =>
    rw [List.range_succ, List.flatMap_append, List.flatMap_singleton, happend, ih, hstep, Nat.mul_succ]

theorem waitMs_append (a b : List Event) : waitMs (a ++ b) = waitMs a + waitMs b := by
  induction a with
  | nil => exact (Nat.zero_add _).symm
  | cons e a ih => cases e <;> simp only [List.cons_append, waitMs, ih, Nat.add_assoc]

/-- Line writes take no delay. -/
theorem waitMs_of_writes {es : List Event} (h : ∀ e ∈ es, ∃ p b, e = .lvl p b .ok) : waitMs es = 0 := by
  induction es with
  | nil => rfl
  | cons e es ih =>
    obtain ⟨⟨p, b, rfl⟩, hes⟩ := List.forall_mem_cons.mp h
    exact ih hes

theorem wait_notMem_screenEvents (ms : Nat) (col : Nat → Byte) (st : Byte) : .wait ms ∉ screenEvents col st := by
  intro h
  obtain ⟨p, b, he⟩ := screenEvents_writes col st _ h
  exact nomatch he

section
variable (buf : List Byte) (st : Byte)

theorem callCount_scrollEvents : callCount (scrollEvents buf st) = 724 * buf.length :=
  additive_scrollEvents callCount_append
    (fun col => by rw [callCount_append, callCount_screenEvents]; rfl) buf

theorem length_scrollEvents : (scrollEvents buf st).length = 725 * buf.length :=
  additive_scrollEvents (fun _ _ => List.length_append)
    (fun col => by rw [List.length_append, screenEvents_length]; rfl) buf

theorem count_wait_scrollEvents : (scrollEvents buf st).count (.wait 128) = buf.length := by
  have hcount := additive_scrollEvents (m := List.count (Event.wait 128)) (fun _ _ => List.count_append) (c := 1) (st := st)
    (fun col => by rw [List.count_append, List.count_eq_zero_of_not_mem (wait_notMem_screenEvents 128 col st)]; rfl) buf
  rwa [Nat.one_mul] at hcount

theorem waitMs_scrollEvents : waitMs (scrollEvents buf st) = 128 * buf.length :=
  additive_scrollEvents waitMs_append
    (fun col => by rw [waitMs_append, waitMs_of_writes (screenEvents_writes col st)]; rfl) buf

end

/-- Settles O28: the complete scroll of O27, measured. -/
theorem scrollLengthAndDelay : Obligations.ScrollLengthAndDelay := by
  intro st text s hlife hcontract hlong hok
  obtain ⟨hsends, -⟩ := longTextsScroll
  obtain ⟨hcomplete, -⟩ := hsends st text s ⟨hlife, hcontract, hlong⟩
  rw [← callCount_scrollEvents _ st] at hok
  refine ⟨_, scrollEvents (expand s.cfg text) st, hcomplete hok, ?_, callCount_scrollEvents _ st,
    count_wait_scrollEvents _ st, length_scrollEvents _ st, waitMs_scrollEvents _ st⟩
  rw [State.responded_trace, State.afterEvents_trace]

end Sys2Proof.Machine

/-! The claims about errors and exceptional inputs (60_exceptions.md): the status codes, the lifecycle check, texts of
unknown characters, and that the first error ends an operation. -/

namespace Sys2Proof.Machine

/-! ## The status codes (R221) -/

/-- Settles O54: the codes, and their bound, status by status. -/
theorem statusCodes : Obligations.StatusCodes := by
  refine ⟨rfl, fun st => ?_⟩
  cases st <;> decide

/-! ## Unknown characters (R222) -/

/-- A text of unknown characters only has no bytes (R175). -/
theorem expand_of_all_miss {c : Config} {text : List Nat} (h : ∀ k ∈ text, charLut c (upper c k) = none) :
    expand c text = [] := by
  induction text with
  | nil => rfl
  | cons k text ih =>
    obtain ⟨hk, htext⟩ := List.forall_mem_cons.mp h
    rw [expand_cons_of_miss hk, ih htext]

/-- Nothing, centred, is the blank frame (R192). -/
theorem centredColumn_nil : centredColumn [] = fun _ => 0 := by
  funext c
  rw [centredColumn, List.getD_nil, ite_self]

/-- A RENDER of unknown characters only takes the short path, with nothing to centre. -/
theorem sentEvents_render_of_all_miss {s : State} {text : List Nat} (st : Byte)
    (h : ∀ k ∈ text, charLut s.cfg (upper s.cfg k) = none) :
    sentEvents s (.render st text) = screenEvents (fun _ => 0) st := by
  have hempty := expand_of_all_miss h
  rw [sentEvents_render_short st (by simp [hempty]), hempty, centredColumn_nil]

/-- Settles O30: RENDER sends the blank frame, all of it where its 724 calls succeed. -/
theorem unknownCharactersRenderBlank : Obligations.UnknownCharactersRenderBlank := by
  intro st text s hlife hcontract hmiss hok
  obtain ⟨hcomplete, -⟩ := exec_sends (i := .render st text) rfl nofun nofun hlife hcontract
  rw [sentEvents_render_of_all_miss st hmiss, callCount_screenEvents] at hcomplete
  exact hcomplete hok

/-! ## The lifecycle check (R224) -/

theorem shutdownStatus_ne_errState (s : State) (w : List Event) : shutdownStatus s w ≠ .errState := by
  rw [shutdownStatus]
  split_ifs <;> decide

/-- Only the lifecycle check answers `ERR_STATE`. -/
theorem Requested.life_ne_of_errState {i : Instr} {s : State} {w : List Event} {l : Life} {st : Status}
    (h : Requested i s w l st) (hst : st = .errState) : s.life ≠ neededLife i := by
  cases h with
  | wrongLife _ hlife => exact hlife
  | shutDown => exact absurd hst (shutdownStatus_ne_errState _ _)
  | contract | configured | configFailed | sent | cut => cases hst

/-- Settles O14: in another life value the check answers; in the request's own, a case of `Requested` that is not the
check's. -/
theorem wrongLifecycleGetsErrState : Obligations.WrongLifecycleGetsErrState := by
  intro i s hi hc
  refine ⟨exec_wrongLife hi hc, fun hlife => ?_⟩
  obtain ⟨w, l, st, hr, he⟩ := exec_host hi s
  exact ⟨_, he, fun hresp => hr.life_ne_of_errState (Option.some.inj hresp) hlife⟩

/-! ## The first error (R104, R225, R226) -/

theorem not_hasErr_initEvents : ¬ HasErr initEvents := by decide

/-- Where no call of a list was answered `err`, the list cut at a call ends with its only one that was. -/
theorem cutAtCall_last_err {es : List Event} (h : ¬ HasErr es) {k : Nat} (hk : k < callCount es) :
    ∃ p e, cutAtCall k es = p ++ [e] ∧ e.answer? = some .err ∧ ∀ e' ∈ p, e'.answer? ≠ some .err := by
  obtain ⟨p, e, q, rfl, hcall, -, hcut⟩ := cutAtCall_eq hk
  exact ⟨p, e.failed, hcut, Event.failed_answer hcall, fun e' he' ha => h ⟨e', List.mem_append_left _ he', ha⟩⟩

/-- Settles O39: a refusal has no event, a completed request's events are all answered `ok`, and a cut one's end with the
first `err`, which gives the status. -/
theorem firstErrorEndsTheOperation : Obligations.FirstErrorEndsTheOperation := by
  intro i s t w st hi hshut h ht
  obtain ⟨l, hr⟩ := requested_of_trace hi h ht
  have hsent := not_hasErr_of_lines (sentEvents_lines s i)
  cases hr with
  | contract => exact .inl ⟨nofun, .inr ⟨rfl, .inr rfl⟩⟩
  | wrongLife => exact .inl ⟨nofun, .inr ⟨rfl, .inl rfl⟩⟩
  | configured => exact .inl ⟨fun e he ha => not_hasErr_initEvents ⟨e, he, ha⟩, .inl rfl⟩
  | configFailed hinit _ k hk =>
    obtain ⟨p, e, hcut, herr, hp⟩ := cutAtCall_last_err not_hasErr_initEvents hk
    exact .inr ⟨p, e, hcut, herr, hp, (if_pos hinit).symm⟩
  | sent => exact .inl ⟨fun e he ha => hsent ⟨e, he, ha⟩, .inl rfl⟩
  | cut hinit _ _ _ k hk =>
    obtain ⟨p, e, hcut, herr, hp⟩ := cutAtCall_last_err hsent hk
    exact .inr ⟨p, e, hcut, herr, hp, (if_neg hinit).symm⟩
  | shutDown hi => exact absurd hi hshut

end Sys2Proof.Machine

/-! The claims about reset and the hazards (70_reset_and_hazards.md): the lifecycle order at reset, the final life values,
INIT and the levels, the order of the clock and data lines, and the strobes after a completed request. -/

namespace Sys2Proof.Machine

/-! ## Reset and the final life values (R250, R252) -/

/-- Settles O4: the reset state calls for no unit operation, its life value is UNCONFIGURED, and its trace is empty. -/
theorem resetMeetsTheLifecycleOrder : Obligations.ResetMeetsTheLifecycleOrder := ⟨rfl, rfl⟩

/-- A request is allowed in UNCONFIGURED or in READY (R224). -/
theorem neededLife_eq_or (i : Instr) : neededLife i = .unconfigured ∨ neededLife i = .ready := by
  by_cases h : i = .init
  · exact .inl (h ▸ rfl)
  · exact .inr (neededLife_of_ne_init h)

/-- No request is allowed in INIT_FAILED or in RELEASED. -/
theorem life_ne_neededLife_of_final {l : Life} (h : l = .initFailed ∨ l = .released) (i : Instr) : l ≠ neededLife i := by
  rcases neededLife_eq_or i with hi | hi <;> rcases h with rfl | rfl <;> rw [hi] <;> decide

/-- Settles O15: the lifecycle check refuses every request that meets its contract, and the contract checks the others. -/
theorem finalLifeValuesOnlyAnswer : Obligations.FinalLifeValuesOnlyAnswer := fun i _ hi hl =>
  ⟨fun hc => exec_wrongLife hi hc (life_ne_neededLife_of_final hl i), exec_contract⟩

/-! ## INIT and the levels (R261) -/

/-- Events that write no pin are no line writes. -/
theorem isWrite_eq_false_of_noWrite {es : List Event} (h : ∀ p, NoWrite p es) : ∀ e ∈ es, e.isWrite = false := by
  intro e he
  cases e with
  | lvl p b r => exact absurd he ((h p).lvl_notMem b r)
  | _ => rfl

/-- INIT makes each pin's level unknown: each pin is exported (R25, R141). -/
theorem get_foldl_after_initEvents (l : Levels) (p : Pin) : (initEvents.foldl Levels.after l).get p = .unknown := by
  cases p <;> rfl

/-- INIT writes no line, refused, failed or completed. -/
theorem Requested.init_noWrite {s : State} {w : List Event} {l : Life} {st : Status} (h : Requested .init s w l st)
    (p : Pin) : NoWrite p w := by
  cases h with
  | contract | wrongLife => exact noWrite_nil p
  | configured => exact initEvents_noWrite p
  | configFailed _ _ k hk => exact (initEvents_noWrite p).cut hk
  | sent hinit | cut hinit => exact absurd rfl hinit
  | shutDown hi => exact nomatch hi

/-- INIT comes from UNCONFIGURED to READY only by its 12 calls. -/
theorem Requested.init_completed {s : State} {w : List Event} {l : Life} {st : Status} (h : Requested .init s w l st)
    (hl : s.life = .unconfigured) (hready : l = .ready) : w = initEvents := by
  cases h with
  | configured => rfl
  | contract | wrongLife => simp [hl] at hready
  | configFailed => exact nomatch hready
  | sent hinit | cut hinit => exact absurd rfl hinit
  | shutDown hi => exact nomatch hi

/-- Settles O20: neither INIT's events nor its response is a line write, and its 12 calls leave every level unknown. -/
theorem initLeavesEveryLevelUnknown : Obligations.InitLeavesEveryLevelUnknown := by
  intro s t h
  obtain ⟨w, l, st, hr, rfl⟩ := host_next rfl h
  have hresp : ∀ p, NoWrite p [Event.resp st] := fun p => by simp [NoWrite, Event.writtenPin]
  refine ⟨⟨w ++ [.resp st], by rw [answered_trace, List.append_assoc], ?_⟩, fun hl hready p => ?_⟩
  · exact isWrite_eq_false_of_noWrite fun p => (hr.init_noWrite p).append (hresp p)
  · obtain rfl := hr.init_completed hl hready
    exact get_foldl_after_initEvents s.lvl p

/-! ## What an instruction puts on the lines

Whatever an instruction does and whatever it is answered, its events are wire frames, events that write no line, and such
lists cut at a failed call. -/

/-- Events made of wire frames and of events that write no line, each part whole or cut at a failed call (R102, R104). -/
inductive Framed : List Event → Prop
  | frame (u : UnitId) (cmd : Byte) (d : List Byte) : Framed (frameEvents (strobe u) cmd d)
  | silent {w : List Event} (h : ∀ p, NoWrite p w) : Framed w
  | append {v w : List Event} (hv : Framed v) (hw : Framed w) : Framed (v ++ w)
  | cut {w : List Event} (h : Framed w) {k : Nat} (hk : k < callCount w) : Framed (cutAtCall k w)

theorem Framed.nil : Framed [] := .silent noWrite_nil

theorem Framed.flatMap {α : Type} {f : α → List Event} (h : ∀ a, Framed (f a)) : ∀ l : List α, Framed (l.flatMap f)
  | [] => .nil
  | a :: l => (h a).append (Framed.flatMap h l)

theorem bothCommand_framed (cmd : Byte) : Framed (bothCommand cmd) := (Framed.frame .left ..).append (.frame .right ..)

theorem screenEvents_framed (col : Nat → Byte) (st : Byte) : Framed (screenEvents col st) :=
  (Framed.frame .left ..).append (.frame .right ..)

theorem scrollEvents_framed (buf : List Byte) (st : Byte) : Framed (scrollEvents buf st) :=
  .flatMap (fun _ => (screenEvents_framed _ st).append (.silent (by simp [NoWrite, Event.writtenPin]))) _

theorem sentEvents_framed (s : State) (i : Instr) : Framed (sentEvents s i) := by
  cases i with
  | setDisplayMode | setDataMode | setPowerOff | setPowerOn => exact bothCommand_framed _
  | writeFrame => exact screenEvents_framed _ _
  | render st text =>
    rw [sentEvents]
    split
    · exact screenEvents_framed _ _
    · exact scrollEvents_framed _ _
  | _ => exact .nil

/-- SHUTDOWN's two pairs of frames, each of them whole or cut (R147). -/
theorem ShutdownWrites.framed {s : State} {w : List Event} (h : ShutdownWrites s (bothCommand 0x80) blankEvents w) :
    Framed w := by
  have hpower := bothCommand_framed 0x80
  have hblank := screenEvents_framed (fun _ => 0) 0
  cases h with
  | all => exact hpower.append hblank
  | blankCut k hk => exact hpower.append (hblank.cut hk)
  | powerCut k hk => exact hpower.cut hk
  | powerCutBlank k hk => exact (hpower.cut hk).append hblank
  | bothCut k m hk _ _ hm => exact (hpower.cut hk).append (hblank.cut hm)

theorem Requested.framed {i : Instr} {s : State} {w : List Event} {l : Life} {st : Status} (h : Requested i s w l st) :
    Framed w := by
  cases h with
  | contract | wrongLife => exact .nil
  | configured => exact .silent initEvents_noWrite
  | configFailed _ _ k hk => exact (Framed.silent initEvents_noWrite).cut hk
  | sent => exact sentEvents_framed s i
  | cut _ _ _ _ k hk => exact (sentEvents_framed s i).cut hk
  | shutDown _ _ w hw =>
    have hrelH : ∀ p, NoWrite p [Event.relH] := fun p => by simp [NoWrite, Event.writtenPin]
    exact hw.framed.append (.silent fun p => (hrelH p).append (releaseEvents_noWrite p s w))

theorem unitEvents_framed (s : State) (i : Instr) : Framed (unitEvents s i) := by
  cases i with
  | cmdDisplayMode | cmdDataMode | cmdAddrWrite | cmdPowerOn | cmdPowerOff => exact .frame ..
  | _ => exact .nil

/-- What every instruction appends to the trace. -/
theorem exec_framed {i : Instr} {s t : State} (h : exec i s = .next t) : ∃ w, t.trace = s.trace ++ w ∧ Framed w := by
  cases hi : i.isHostRequest with
  | true =>
    obtain ⟨w, l, st, hr, rfl⟩ := host_next hi h
    exact ⟨w ++ [.resp st], by rw [answered_trace, List.append_assoc],
      hr.framed.append (.silent (by simp [NoWrite, Event.writtenPin]))⟩
  | false =>
    have hframed := unitEvents_framed s i
    obtain ⟨w, r, rfl, ⟨rfl, -⟩ | ⟨k, hk, rfl, -⟩⟩ := unit_next hi h
    · exact ⟨_, State.afterEvents_trace .., hframed⟩
    · exact ⟨_, State.afterEvents_trace .., hframed.cut hk⟩

/-! ## Data before the clock's rise (R262) -/

/-- Each write that drives the clock high stands right behind the clock's fall and a write of the data line. -/
def DataBeforeRise (w : List Event) : Prop :=
  ∀ p q r, w = p ++ .lvl .clk true r :: q → ∃ p' b, p = p' ++ [.lvl .clk false .ok, .lvl .dio b .ok]

/-- Where the clock is not written, it does not rise. -/
theorem dataBeforeRise_of_noWrite {w : List Event} (h : NoWrite .clk w) : DataBeforeRise w := by
  rintro p q r rfl
  exact absurd (List.mem_append_right p List.mem_cons_self) (h.lvl_notMem true r)

/-- In a slot the clock rises once, at its end (R100). -/
theorem slotEvents_dataBeforeRise (b : Bool) : DataBeforeRise (slotEvents b) := by
  intro p q r h
  match p, h with
  | [_, _], h => cases h; exact ⟨[], b, rfl⟩
  | _ :: _ :: _ :: _, h => simp [slotEvents] at h

/-- A rise in the second part has its slot in that part, so none stands at its start. -/
theorem DataBeforeRise.append {v w : List Event} (hv : DataBeforeRise v) (hw : DataBeforeRise w) :
    DataBeforeRise (v ++ w) := by
  intro p q r h
  rcases List.append_eq_append_iff.mp h with ⟨a, rfl, ha⟩ | ⟨a, rfl, ha⟩
  · obtain ⟨p', b, rfl⟩ := hw a q r ha
    exact ⟨v ++ p', b, (List.append_assoc ..).symm⟩
  · cases a with
    | nil =>
      obtain ⟨p', b, hp⟩ := hw [] q r ha.symm
      simp at hp
    | cons e a =>
      obtain ⟨rfl, -⟩ := List.cons.inj ha
      exact hv p a r rfl

theorem DataBeforeRise.flatMap {α : Type} {f : α → List Event} (h : ∀ a, DataBeforeRise (f a)) :
    ∀ l : List α, DataBeforeRise (l.flatMap f)
  | [] => dataBeforeRise_of_noWrite (noWrite_nil _)
  | a :: l => (h a).append (DataBeforeRise.flatMap h l)

/-- A write that was answered `err` is the same write. -/
theorem Event.failed_eq_lvl {e : Event} {p : Pin} {b : Bool} {r : Answer} (h : e.failed = .lvl p b r) :
    ∃ r', e = .lvl p b r' := by
  cases e <;> cases h
  exact ⟨_, rfl⟩

/-- The failed call that ends a cut list may itself be a rise of the clock; what stands before it is as in the whole
list. -/
theorem DataBeforeRise.cut {w : List Event} (h : DataBeforeRise w) {k : Nat} (hk : k < callCount w) :
    DataBeforeRise (cutAtCall k w) := by
  obtain ⟨v, e, u, rfl, -, -, hcut⟩ := cutAtCall_eq hk
  intro p q r heq
  rw [hcut] at heq
  obtain rfl | ⟨q', x, rfl⟩ := List.eq_nil_or_concat q
  · obtain ⟨rfl, hlast⟩ := List.append_inj' heq rfl
    obtain ⟨r', rfl⟩ := Event.failed_eq_lvl (List.cons.inj hlast).1
    exact h v u r' rfl
  · rw [List.concat_eq_append, ← List.cons_append, ← List.append_assoc] at heq
    obtain ⟨rfl, -⟩ := List.append_inj' heq rfl
    exact h p (q' ++ e :: u) r (by simp)

/-- A frame is its slots between the edges of its strobe (R60). -/
theorem frameEvents_dataBeforeRise (u : UnitId) (cmd : Byte) (d : List Byte) :
    DataBeforeRise (frameEvents (strobe u) cmd d) := by
  have hedge : ∀ b, DataBeforeRise [.lvl (strobe u) b .ok] := fun b =>
    dataBeforeRise_of_noWrite (by simp [NoWrite, Event.writtenPin])
  exact (hedge false).append ((DataBeforeRise.flatMap slotEvents_dataBeforeRise _).append (hedge true))

theorem Framed.dataBeforeRise {w : List Event} (h : Framed w) : DataBeforeRise w := by
  induction h with
  | frame u cmd d => exact frameEvents_dataBeforeRise u cmd d
  | silent h => exact dataBeforeRise_of_noWrite (h .clk)
  | append _ _ ihv ihw => exact ihv.append ihw
  | cut _ hk ih => exact ih.cut hk

/-- Settles O41: the clock rises at the ends of a frame's slots only, and a failed call changes nothing before it. -/
theorem dataIsWrittenBeforeTheClockRises : Obligations.DataIsWrittenBeforeTheClockRises := by
  intro i s t w h ht
  obtain ⟨w', hw', hframed⟩ := exec_framed h
  obtain rfl := List.append_cancel_left (ht.symm.trans hw')
  exact hframed.dataBeforeRise

/-! ## The strobes after a completed request (R108, R260) -/

/-- After these events both strobes are high, whatever the levels before them. -/
def LeavesStrobesHigh (w : List Event) : Prop := ∀ l u, (w.foldl Levels.after l).get (strobe u) = .high

/-- What happened before does not count. -/
theorem LeavesStrobesHigh.prepend {w : List Event} (h : LeavesStrobesHigh w) (v : List Event) :
    LeavesStrobesHigh (v ++ w) := by
  intro l u
  rw [List.foldl_append]
  exact h _ u

/-- A wait drives no line. -/
theorem LeavesStrobesHigh.append_wait {w : List Event} (h : LeavesStrobesHigh w) (ms : Nat) :
    LeavesStrobesHigh (w ++ [.wait ms]) := by
  intro l u
  rw [List.foldl_append]
  exact h l u

/-- Each frame raises its own strobe, and the right unit's frame does not write the left unit's. -/
theorem framePair_leavesStrobesHigh (cmd cmd' : Byte) (d d' : List Byte) :
    LeavesStrobesHigh (frameEvents .stbL cmd d ++ frameEvents .stbR cmd' d') := by
  intro l u
  rw [List.foldl_append]
  cases u with
  | left =>
    rw [strobe, Levels.get_foldl_after (isWrite_of_writes (frameEvents_writes .stbR cmd' d')) (rightFrame_noWrite cmd' d')]
    obtain ⟨l', hl'⟩ := foldl_after_frameEvents .stbL cmd d l
    rw [hl']
    exact Levels.get_set_self ..
  | right =>
    obtain ⟨l', hl'⟩ := foldl_after_frameEvents .stbR cmd' d' ((frameEvents .stbL cmd d).foldl Levels.after l)
    rw [hl']
    exact Levels.get_set_self ..

theorem screenEvents_leavesStrobesHigh (col : Nat → Byte) (st : Byte) : LeavesStrobesHigh (screenEvents col st) :=
  framePair_leavesStrobesHigh _ _ _ _

/-- A scroll of at least one step ends with a screen frame and its wait (R194, R195). -/
theorem scrollEvents_leavesStrobesHigh {buf : List Byte} (h : 0 < buf.length) (st : Byte) :
    LeavesStrobesHigh (scrollEvents buf st) := by
  obtain ⟨n, hn⟩ := Nat.exists_eq_add_one.mpr h
  rw [scrollEvents, hn, List.range_succ, List.flatMap_append, List.flatMap_singleton]
  exact ((screenEvents_leavesStrobesHigh _ st).append_wait 128).prepend _

theorem sentEvents_render_leavesStrobesHigh (s : State) (st : Byte) (text : List Nat) :
    LeavesStrobesHigh (sentEvents s (.render st text)) := by
  rcases Nat.lt_or_ge 27 (expand s.cfg text).length with hlong | hshort
  · rw [sentEvents_render_long st hlong]
    exact scrollEvents_leavesStrobesHigh (by omega) st
  · rw [sentEvents_render_short st hshort]
    exact screenEvents_leavesStrobesHigh _ st

/-- Other than INIT and SHUTDOWN, a request that answers `OK` has sent all its events. -/
theorem Requested.completed {i : Instr} {s : State} {w : List Event} {l : Life} {st : Status} (h : Requested i s w l st)
    (hinit : i ≠ .init) (hshut : i ≠ .shutdown) (hok : st = .ok) : w = sentEvents s i := by
  cases h with
  | sent => rfl
  | contract | wrongLife | cut => exact nomatch hok
  | configured hi | configFailed hi => exact absurd hi hinit
  | shutDown hi => exact absurd hi hshut

/-- A completed request leaves the strobes as its events do. -/
theorem strobeMayBeLow_of_completed {i : Instr} {s t : State} (hhost : i.isHostRequest = true) (hinit : i ≠ .init)
    (hshut : i ≠ .shutdown) (hhigh : LeavesStrobesHigh (sentEvents s i)) (h : exec i s = .next t)
    (hok : t.resp = some .ok) (u : UnitId) : t.strobeMayBeLow u = false := by
  obtain ⟨w, l, st, hr, rfl⟩ := host_next hhost h
  obtain rfl := hr.completed hinit hshut (Option.some.inj hok)
  rw [State.strobeMayBeLow, State.responded_lvl, State.afterEvents_lvl, hhigh]
  rfl

theorem kind_of_sendsOnePair {i : Instr} (h : sendsOnePair i = true) :
    i.isHostRequest = true ∧ i ≠ .init ∧ i ≠ .shutdown := by
  cases i with
  | setDisplayMode | setDataMode | setPowerOff | setPowerOn | writeFrame => exact ⟨rfl, nofun, nofun⟩
  | _ => cases h

/-- Settles O43: a completed request has sent all its events, which end with a whole pair of frames. -/
theorem completedRequestsLeaveBothStrobesHigh : Obligations.CompletedRequestsLeaveBothStrobesHigh := by
  rintro i s t (hpair | ⟨st, text, rfl⟩) h hok
  · obtain ⟨hhost, hinit, hshut⟩ := kind_of_sendsOnePair hpair
    obtain ⟨cmd, d, cmd', d', hsent⟩ := sentEvents_onePair hpair s
    exact strobeMayBeLow_of_completed hhost hinit hshut (hsent ▸ framePair_leavesStrobesHigh cmd cmd' d d') h hok
  · have hhigh := sentEvents_render_leavesStrobesHigh s st text
    exact strobeMayBeLow_of_completed (i := .render st text) rfl nofun nofun hhigh h hok

end Sys2Proof.Machine
